-- ==== Sys2Proof/Word.lean ====
section
/-! DEFINITION. The words of the block: 32-bit registers, RLE elements and bus data (00_scope R6, R7),
8-bit RAW and PBM cells (R8), and the number notation of R10. -/

namespace Sys2Proof

/-- A register, an RLE element, a command word, a data word of the bus (R6, R7). -/
abbrev Word := BitVec 32

/-- A RAW pixel cell or a PBM scanline byte (R8). -/
abbrev Byte := BitVec 8

/-- `toU32(n)`: the 32-bit pattern of `n mod 2^32` (R10). -/
def toU32 (n : Nat) : Word := BitVec.ofNat 32 n

/-- `toS32(v)`: the pattern `v` read as a two's-complement number (R10). -/
def toS32 (v : Word) : Int := v.toInt

end Sys2Proof
end

