-- ==== Sys2Proof/Config.lean ====
section
/-! DEFINITION. What an implementation fixes (00_scope R5): the OPEN parameters MAX_WIDTH and BASE, the
capacities and the stride that follow from them, ID_VALUE; and the free values of the model, opaque
constants that no proof can see the value of. -/

namespace Sys2Proof

/-- The OPEN parameters of 00_scope R5. Every claim quantifies over them (log 1). -/
structure Params where
  /-- `MAX_WIDTH`: the largest row width the block accepts, in pixels. -/
  maxWidth : Nat
  /-- `BASE`: the bus address of byte offset 0 of the window. -/
  base : Nat
  deriving DecidableEq, Repr

/-- `RAW_CAP`, in bytes (R5). -/
def Params.rawCap (p : Params) : Nat := p.maxWidth

/-- `RLE_CAP`, in 32-bit elements (R5). -/
def Params.rleCap (p : Params) : Nat := p.maxWidth + 2

/-- `PBM_CAP = ceil(MAX_WIDTH / 8)`, in bytes (R5). -/
def Params.pbmCap (p : Params) : Nat := (p.maxWidth + 7) / 8

/-- `S`: the smallest power of two that is at least `max(256, 4*(MAX_WIDTH + 2))` (R5). For `n >= 2` that
power is `2^(log2(n-1) + 1)`; Laws/Config.lean proves it the least. -/
def Params.stride (p : Params) : Nat := 2 ^ (Nat.log2 (max 256 (4 * (p.maxWidth + 2)) - 1) + 1)

/-- `ID_VALUE` (R5; 10_state R22). -/
def idValue : Word := 0x524C4331#32

/-- The parameters of `State.reset`. DESIGN CHOICE (log 1), unsafe for a claim about `State.reset` alone:
MAX_WIDTH is that of the spec's vectors (95_test_vectors section 0); the spec leaves both OPEN. -/
def Config.resetParams : Params where
  maxWidth := 62
  base := 0

/-- The latency drawn at an issue: how many HOST steps come before the completion (60_exceptions R205;
93 U8, "No number"). A free value (log 2). -/
opaque Config.freeLatency : Nat → Nat

/-- The word a host read returns where 70_reset R241 says "any value". A free value (log 3). -/
opaque Config.freeWord : Nat → Word

/-- The word that an aborted COMPRESS leaves in an RLE cell (70_reset R231). A free value (log 3). -/
opaque Config.freeElement : Nat → Word

/-- The byte that an aborted command leaves in a RAW or PBM cell (70_reset R231). A free value (log 3). -/
opaque Config.freeByte : Nat → Byte

end Sys2Proof
end

