-- ==== Sys2Proof/Syntax.lean ====
section
/-! DEFINITION. The command set RLC-1: one constructor per row of spec/opcode_table.json. A command has no
operand field (30_encoding R92): its operands are WIDTH and the buffers. -/

namespace Sys2Proof

/-- The seven commands (30_encoding R93). -/
inductive Instr where
  | runcount    -- OP 1, 40_rle_codec R130
  | compress    -- OP 2, 40_rle_codec R135
  | decompress  -- OP 3, 40_rle_codec R140
  | sizeof      -- OP 4, 40_rle_codec R145
  | runsof      -- OP 5, 40_rle_codec R148
  | pack        -- OP 6, 41_pbm_codec R165
  | unpack      -- OP 7, 41_pbm_codec R170
  deriving DecidableEq, Repr

end Sys2Proof
end

