-- ==== Sys2Proof/WellFormed.lean ====
section
/-! DEFINITION. What is well formed: a command (always: it has no operand), a command word, the parameters. -/

namespace Sys2Proof

/-- A command has no operand field and no immediate (30_encoding R92), so each is well formed. -/
def Instr.wf : Instr → Bool
  | .runcount => true
  | .compress => true
  | .decompress => true
  | .sizeof => true
  | .runsof => true
  | .pack => true
  | .unpack => true

/-- A command word of R90 and R93: RSV is 0 and OP is 1 to 7. -/
def commandWordWf (w : Word) : Bool :=
  w.extractLsb 31 4 == 0#28 && decide (1 ≤ (w.extractLsb 3 0).toNat) && decide ((w.extractLsb 3 0).toNat ≤ 7)

/-- The bounds 00_scope R5 sets on the OPEN parameters. -/
def Params.wf (p : Params) : Bool :=
  decide (1 ≤ p.maxWidth) && decide (p.maxWidth ≤ 2 ^ 28 - 2) && p.base % (4 * p.stride) == 0

end Sys2Proof
end

