-- ==== Sys2Proof/Decode.lean ====
section
/-! DEFINITION. The decoder of 30_encoding R94, total on every 32-bit word, and the encoder of R93. -/

namespace Sys2Proof

/-- `Command | BadCommand` (30_encoding R94). -/
inductive Decoded where
  /-- The word is a command of R93. -/
  | command (i : Instr)
  /-- The word is illegal (R95). -/
  | badCommand
  deriving DecidableEq, Repr

/-- RSV, bits 31:4 of a command word (R90). -/
def rsvField (w : Word) : BitVec 28 := w.extractLsb 31 4

/-- OP, bits 3:0 of a command word (R90). -/
def opField (w : Word) : BitVec 4 := w.extractLsb 3 0

/-- The opcode map of R93. -/
def decodeOp : Nat → Decoded
  | 0x1 => .command .runcount
  | 0x2 => .command .compress
  | 0x3 => .command .decompress
  | 0x4 => .command .sizeof
  | 0x5 => .command .runsof
  | 0x6 => .command .pack
  | 0x7 => .command .unpack
  | _ => .badCommand

/-- Decoding (R94). -/
def decode (w : Word) : Decoded :=
  if rsvField w ≠ 0#28 then .badCommand else decodeOp (opField w).toNat

/-- `enc(op)`: the command word of R93. -/
def encode : Instr → Word
  | .runcount => 0x00000001#32
  | .compress => 0x00000002#32
  | .decompress => 0x00000003#32
  | .sizeof => 0x00000004#32
  | .runsof => 0x00000005#32
  | .pack => 0x00000006#32
  | .unpack => 0x00000007#32

/-- The instruction the decoder reads from a word of spec/opcode_table.json: `nbits` bits of `w`, all bits
above them 0; a command is exactly 32 bits (R91), so a longer number is no command. -/
def decodeTableWord (nbits w : Nat) : Option Instr :=
  if w % 2 ^ nbits < 2 ^ 32 then
    match decode (BitVec.ofNat 32 (w % 2 ^ nbits)) with
    | .command i => some i
    | .badCommand => none
  else none

end Sys2Proof
end

