-- ==== Sys2Proof/Machine/HostOp.lean ====
section
/-! DEFINITION. What the outside world does to the block: the lines of a host program (00_scope R15, R16),
the general bus primitives of R12, and the platform's power-on reset (70_reset R230). -/

namespace Sys2Proof.Machine

/-- One line of the HOST's program. A label of R15 names a line; here it IS the line's index (log 14). -/
inductive HostOp where
  /-- `WR off, v` is `MemWrite(BASE + off, 4, v)` (R15). -/
  | wr (off : Nat) (v : Word)
  /-- `RD off -> tN` is `tN <- MemRead(BASE + off, 4)` (R15). -/
  | rd (off : Nat) (t : Fin 16)
  /-- `BNZ tN, mask, label`: to `label` if `(tN AND mask) != 0`, else the next line (R15). -/
  | bnz (t : Fin 16) (mask : Word) (label : Nat)
  /-- `BZ tN, mask, label`: to `label` if `(tN AND mask) == 0`, else the next line (R15). -/
  | bz (t : Fin 16) (mask : Word) (label : Nat)
  /-- `HALT`: the host program ends (R15). -/
  | halt
  /-- `tN <- MemRead(addr, n)`: a read transaction of any size at any bus address (R12). -/
  | memRead (addr n : Nat) (t : Fin 16)
  /-- `MemWrite(addr, n, v)`: a write transaction of any size at any bus address (R12). -/
  | memWrite (addr n : Nat) (v : Word)
  /-- The platform asserts the block's reset (70_reset R230). -/
  | powerOnReset
  deriving DecidableEq, Repr

/-- Register offsets (20_memory R61), the names of R15's notation. -/
def offId : Nat := 0x00
def offCaps : Nat := 0x04
def offStride : Nat := 0x08
def offCtrl : Nat := 0x0C
def offCmd : Nat := 0x10
def offStatus : Nat := 0x14
def offWidth : Nat := 0x18
def offResult : Nat := 0x1C
def offErrinfo : Nat := 0x20
def offAccessCount : Nat := 0x24

/-- `RAWW(m)`: offset `S + 4*m` (R15). -/
def offRaww (p : Params) (m : Nat) : Nat := p.stride + 4 * m

/-- `RLEW(i)`: offset `2*S + 4*i` (R15). -/
def offRlew (p : Params) (i : Nat) : Nat := 2 * p.stride + 4 * i

/-- `PBMW(m)`: offset `3*S + 4*m` (R15). -/
def offPbmw (p : Params) (m : Nat) : Nat := 3 * p.stride + 4 * m

/-- `ISSUE op` expands to `WR CMD, enc(op)` (R16). -/
def hostIssue (i : Instr) : HostOp := .wr offCmd (encode i)

/-- `WAIT tN` at line `line` expands to `Lw: RD STATUS -> tN` and `BNZ tN, 0x1, Lw`, where `Lw` is that
line (R16). -/
def hostWait (line : Nat) (t : Fin 16) : List HostOp := [.rd offStatus t, .bnz t 0x1#32 line]

end Sys2Proof.Machine
end

