-- ==== Sys2Proof/Machine/State.lean ====
section
/-! DEFINITION. The state of the block (10_state R42) as plain data, the model's own fields beside it, the
reasons a step stops, and the state after power-on reset (R43). -/

namespace Sys2Proof.Machine

/-- The three buffers of the block (10_state R34 to R36). -/
inductive Buffer where
  | raw
  | rle
  | pbm
  deriving DecidableEq, Repr

/-- Why the machine stops with a fault. Each is the spec's own treatment of a host program or a command that
has no value to go on with. -/
inductive Fault where
  /-- Raised by a host transaction whose response is BUSERR: wrong size, misaligned, or unmapped
  (60_exceptions R200: "A model treats a host transaction with BUSERR as a fault of the host program"). Safe. -/
  | busError
  /-- Raised by a host read, while BUSY = 0, of a buffer word one of whose non-padding lanes is
  uninitialised (70_reset R232 a); it names the lowest such cell. Safe. -/
  | hostReadUninitialised (b : Buffer) (index : Nat)
  /-- Raised by a command whose pseudocode reads an uninitialised cell (70_reset R232 b); it names the
  first such cell in the pseudocode's order. Safe. -/
  | commandReadUninitialised (b : Buffer) (index : Nat)
  deriving DecidableEq, Repr

/-- Why the model gives no meaning to a step. -/
inductive Refusal where
  /-- Raised only by an arm of `exec` whose instruction has no meaning yet (none is left). Safe. -/
  | notModelled (mnemonic : String)
  /-- Raised by a host transaction at a bus address outside the window: "What the platform does with other
  addresses is outside the block" (20_memory R62). Safe. -/
  | outsideWindow (addr : Nat)
  deriving DecidableEq, Repr

/-- The state vector of 10_state R42, and after it the model's own fields. -/
structure State where
  /-- CTRL.IE (R25). -/
  ie : Bool
  /-- STATUS.BUSY (R27): a command is in flight (R40). -/
  busy : Bool
  /-- STATUS.DONE (R27). -/
  done : Bool
  /-- STATUS.WERR (R27). -/
  werr : Bool
  /-- STATUS.ERRCODE (R27); ERR is derived from it. -/
  errcode : BitVec 4
  /-- WIDTH (R28). -/
  width : Word
  /-- RESULT (R29). -/
  result : Word
  /-- ERRINFO (R30). -/
  errinfo : Word
  /-- ACCESS_COUNT (R31). -/
  acount : Word
  /-- LCMD, the latched command word (R39). -/
  lcmd : Word
  /-- The RAW buffer (R34): index and byte; an index that is not listed is uninitialised. -/
  raw : List Host.Cell
  /-- The RLE buffer (R35): index and element; an index that is not listed is uninitialised. -/
  rle : List (Nat × Word)
  /-- The PBM buffer (R36): index and byte; an index that is not listed is uninitialised. -/
  pbm : List Host.Cell
  /-- MODEL's own (log 1): the OPEN parameters of 00_scope R5; no step changes them. -/
  params : Params
  /-- MODEL's own (log 2): how many more HOST steps may come before the completion (60_exceptions R205). -/
  wait : Nat
  /-- MODEL's own (log 3): how many free values have been drawn. -/
  draws : Nat
  /-- MODEL's own (log 4): the HOST's program (00_scope R15). -/
  program : List HostOp
  /-- MODEL's own (log 4): the line the HOST runs next. -/
  hostPc : Nat
  /-- MODEL's own (log 4): t0 to t15, "host scratch values, not block state" (00_scope R15). -/
  scratch : Vector Word 16
  deriving DecidableEq, Repr

/-- The state right after power-on reset (10_state R43; 70_reset R230) of a block with the parameters `p`,
beside a HOST that has no program. The last four values are DESIGN CHOICE (logs 2, 3, 4). -/
def State.resetWith (p : Params) : State where
  ie := false
  busy := false
  done := false
  werr := false
  errcode := 0#4
  width := 0#32
  result := 0#32
  errinfo := 0#32
  acount := 0#32
  lcmd := 0#32
  raw := []
  rle := []
  pbm := []
  params := p
  wait := 0
  draws := 0
  program := []
  hostPc := 0
  scratch := Vector.replicate 16 0#32

/-- The state right after power-on reset. The parameters are DESIGN CHOICE (log 1). -/
def State.reset : State := State.resetWith Config.resetParams

end Sys2Proof.Machine
end

