-- ==== Sys2Proof/Machine/Ops.lean ====
section
/-! DEFINITION. The named operations over buffers and registers: reading and writing cells, the result of a
command's pseudocode, issue (60_exceptions R204), completion with success or with an error (R205, R192), the
return beside it (R210), and the two resets (70_reset R230, R231). -/

namespace Sys2Proof.Machine

/-! ### Buffer cells -/

/-- The value of cell `i`; `none` is "uninitialised" (10_state R42). -/
def Memory.read {n : Nat} : List (Nat × BitVec n) → Nat → Option (BitVec n)
  | [], _ => none
  | (j, x) :: rest, i => if i = j then some x else Memory.read rest i

/-- Stores `v` into cell `i`, which is then initialised; indices stay strictly rising. -/
def Memory.write {n : Nat} : List (Nat × BitVec n) → Nat → BitVec n → List (Nat × BitVec n)
  | [], i, v => [(i, v)]
  | (j, x) :: rest, i, v =>
    if i < j then (i, v) :: (j, x) :: rest
    else if i = j then (i, v) :: rest
    else (j, x) :: Memory.write rest i v

/-- Stores a list of values into the cells `i`, `i + 1`, and so on. -/
def Memory.writeList {n : Nat} (m : List (Nat × BitVec n)) : Nat → List (BitVec n) → List (Nat × BitVec n)
  | _, [] => m
  | i, v :: vs => Memory.writeList (Memory.write m i v) (i + 1) vs

/-- Indices at or above `lo`, strictly rising, and below the capacity `cap`. -/
def Memory.wfFrom {n : Nat} (cap : Nat) : Nat → List (Nat × BitVec n) → Bool
  | _, [] => true
  | lo, (j, _) :: rest => decide (lo ≤ j) && decide (j < cap) && Memory.wfFrom cap (j + 1) rest

/-- The canonical form of a buffer of `cap` cells. No entry can equal what an unlisted cell reads as, since
an unlisted cell has no value (70_reset R232). -/
def Memory.wf {n : Nat} (cap : Nat) (m : List (Nat × BitVec n)) : Bool := Memory.wfFrom cap 0 m

/-! ### The result of a command's pseudocode -/

/-- The error codes of 60_exceptions R191. -/
inductive CmdError where
  | badCommand
  | widthZero
  | widthRange
  | rawValue
  | rleLead
  | rleRun
  | rleSum
  | rleNoSentinel
  deriving DecidableEq, Repr

/-- STATUS.ERRCODE of an error (60_exceptions R191). -/
def CmdError.code : CmdError → BitVec 4
  | .badCommand => 1#4
  | .widthZero => 2#4
  | .widthRange => 3#4
  | .rawValue => 4#4
  | .rleLead => 5#4
  | .rleRun => 6#4
  | .rleSum => 7#4
  | .rleNoSentinel => 8#4

/-- What a piece of a command's pseudocode gives: a value, `raise CmdError(code, info)` (00_scope R13), or a
fault at an uninitialised cell (70_reset R232 b). -/
inductive CmdResult (α : Type) where
  | ok (a : α)
  | error (e : CmdError) (info : Nat)
  | fault (f : Fault)
  deriving DecidableEq, Repr

/-- One line of pseudocode after another: the first `raise` or fault ends the command (00_scope R13). -/
def CmdResult.bind {α β : Type} (r : CmdResult α) (f : α → CmdResult β) : CmdResult β :=
  match r with
  | .ok a => f a
  | .error e info => .error e info
  | .fault flt => .fault flt

/-- What a command's commit phase leaves: the state with its cells and RESULT written, and `count(cmd)` of
60_exceptions R214. -/
structure Commit where
  written : State
  count : Nat

/-! ### The commit phase: the one place that writes each destination -/

/-- Commit of a command that only counts. -/
def commitCount (n : Nat) (s : State) : State := { s with result := toU32 n }

/-- Commit into `RAW[0..]`. Cells past the row keep their value (10_state R38). -/
def commitRaw (row : List Byte) (n : Nat) (s : State) : State :=
  { s with raw := Memory.writeList s.raw 0 row, result := toU32 n }

/-- Commit into `RLE[0..]`. Cells past the row keep their value (10_state R38). -/
def commitRle (row : List Word) (n : Nat) (s : State) : State :=
  { s with rle := Memory.writeList s.rle 0 row, result := toU32 n }

/-- Commit into `PBM[0..]`. Cells past the row keep their value (10_state R38). -/
def commitPbm (row : List Byte) (n : Nat) (s : State) : State :=
  { s with pbm := Memory.writeList s.pbm 0 row, result := toU32 n }

/-! ### Issue, completion and return -/

/-- Issue of the word `v` while BUSY = 0 (60_exceptions R204). The latency is a free value (log 2). -/
def issue (v : Word) (s : State) : State :=
  { s with lcmd := v, busy := true, done := false, errcode := 0#4, errinfo := 0#32,
           wait := Config.freeLatency s.draws, draws := s.draws + 1 }

/-- Completion with success (60_exceptions R205): `count` is added modulo 2^32 (R214). -/
def completeSuccess (count : Nat) (s : State) : State :=
  { s with acount := s.acount + toU32 count, busy := false, done := true }

/-- Completion with an error: the block's one exception entry (60_exceptions R192, R205, R209). It saves
ERRCODE and ERRINFO, sets DONE, clears BUSY, and changes nothing else. -/
def completeError (e : CmdError) (info : Nat) (s : State) : State :=
  { s with errcode := e.code, errinfo := toU32 info, busy := false, done := true }

/-- The end of a command: what its pseudocode gave becomes the ENGINE's one atomic step (60_exceptions R205). -/
def conclude (s : State) : CmdResult Commit → Host.Outcome State Fault Refusal
  | .ok c => .next (completeSuccess c.count c.written)
  | .error e info => .next (completeError e info s)
  | .fault f => .fault f

/-- The return from a completion: a write to STATUS (10_state R27; 60_exceptions R210). Only DONE and WERR
can be cleared, each by writing 1 to its bit. -/
def writeStatus (v : Word) (s : State) : State :=
  { s with done := s.done && !v.getLsbD 1, werr := s.werr && !v.getLsbD 3 }

/-- A host write dropped because BUSY = 1 (70_reset R240). -/
def dropWrite (s : State) : State := { s with werr := true }

/-! ### Reset -/

/-- Every register at its reset value (10_state R43). -/
def clearRegisters (s : State) : State :=
  { s with ie := false, busy := false, done := false, werr := false, errcode := 0#4, width := 0#32,
           result := 0#32, errinfo := 0#32, acount := 0#32, lcmd := 0#32 }

/-- Power-on reset at any time (70_reset R230): the registers reset, every cell uninitialised. The HOST's own
side and the model's counters stay (log 12). -/
def powerOnReset (s : State) : State := { clearRegisters s with raw := [], rle := [], pbm := [] }

/-- `dest(cmd, w)` of 70_reset R231: the buffer a command could write and how many of its cells, from cell 0. -/
def destCells (d : Decoded) (p : Params) (w : Nat) : Option (Buffer × Nat) :=
  match d with
  | .command .compress => some (.rle, min w p.maxWidth + 2)
  | .command .decompress => some (.raw, min w p.maxWidth)
  | .command .unpack => some (.raw, min w p.maxWidth)
  | .command .pack => some (.pbm, (min w p.maxWidth + 7) / 8)
  | .command .runcount => none
  | .command .sizeof => none
  | .command .runsof => none
  | .badCommand => none

/-- `n` free values, each with an index of its own, the first of them `draws`. -/
def drawn {k : Nat} (free : Nat → BitVec k) (draws n : Nat) : List (BitVec k) :=
  (List.range n).map fun i => free (draws + i)

/-- The cells of an aborted command take free values and are then initialised (70_reset R231). -/
def abortCells (s : State) : State :=
  match destCells (decode s.lcmd) s.params s.width.toNat with
  | some (.raw, n) =>
    { s with raw := Memory.writeList s.raw 0 (drawn Config.freeByte s.draws n), draws := s.draws + n }
  | some (.rle, n) =>
    { s with rle := Memory.writeList s.rle 0 (drawn Config.freeElement s.draws n), draws := s.draws + n }
  | some (.pbm, n) =>
    { s with pbm := Memory.writeList s.pbm 0 (drawn Config.freeByte s.draws n), draws := s.draws + n }
  | none => s

/-- Soft reset (70_reset R231). -/
def softReset (s : State) : State := clearRegisters (if s.busy then abortCells s else s)

/-! ### The HOST's own state -/

/-- `tN <- v` (00_scope R15). -/
def setScratch (t : Fin 16) (v : Word) (s : State) : State := { s with scratch := s.scratch.set t v }

/-- The HOST leaves a line: the next line is next, and one HOST step of the latency has passed (log 2). -/
def hostAdvance (s : State) : State := { s with hostPc := s.hostPc + 1, wait := s.wait - 1 }

/-- The HOST goes to a line (00_scope R15). -/
def hostGoto (line : Nat) (s : State) : State := { s with hostPc := line }

end Sys2Proof.Machine
end

