-- ==== Sys2Proof/Machine/Flags.lean ====
section
/-! DEFINITION. The flags of the block: the STATUS and CTRL words a host reads (10_state R25, R27, R33) and
the interrupt output (R41; 60_exceptions R207). -/

namespace Sys2Proof.Machine

/-- STATUS.ERR: "always equals `ERRCODE != 0`" (10_state R27). -/
def errFlag (s : State) : Bool := s.errcode != 0#4

/-- The STATUS word (10_state R27): BUSY 0, DONE 1, ERR 2, WERR 3, ERRCODE 11:8, the reserved bits 0. -/
def statusWord (s : State) : Word :=
  0#20 ++ s.errcode ++ 0#4 ++ BitVec.ofBool s.werr ++ BitVec.ofBool (errFlag s) ++ BitVec.ofBool s.done
    ++ BitVec.ofBool s.busy

/-- The CTRL word (10_state R25): IE in bit 0; SRST and the reserved bits read 0. -/
def ctrlWord (s : State) : Word := 0#31 ++ BitVec.ofBool s.ie

/-- The interrupt output, `CTRL.IE AND STATUS.DONE` (10_state R41; 60_exceptions R207). -/
def irq (s : State) : Bool := s.ie && s.done

/-- A write to CTRL (10_state R25): SRST = 1 performs the soft reset, else IE takes bit 0. -/
def writeCtrl (v : Word) (s : State) : State :=
  if v.getLsbD 1 then softReset s else { s with ie := v.getLsbD 0 }

end Sys2Proof.Machine
end

