-- ==== Sys2Proof/Machine/Operands.lean ====
section
/-! DEFINITION. How a command finds and checks its operands (40_rle_codec R117 to R119, R121), and the pure
functions on rows: runs (R115), RLE encode and decode (R116, R120), scanline pack and unpack (41_pbm_codec R164). -/

namespace Sys2Proof.Machine

/-- SENTINEL, the element −1 (00_scope R7; 40_rle_codec R112). -/
def sentinel : Word := 0xFFFFFFFF#32

/-- WHITE, the pixel value 0 (40_rle_codec R113). -/
def white : Byte := 0x00#8

/-- BLACK, the pixel value 1 (40_rle_codec R113). -/
def black : Byte := 0x01#8

/-- `check_width()` (40_rle_codec R117). -/
def checkWidth (s : State) : CmdResult Nat :=
  if s.width.toNat = 0 then .error .widthZero 0
  else if s.params.maxWidth < s.width.toNat then .error .widthRange 0
  else .ok s.width.toNat

/-- `check_raw(w)` (40_rle_codec R118) over the `n` columns from `c` on, ascending. It gives the pixels it
read, so that the command computes on them. -/
def checkRaw (raw : List Host.Cell) : (c n : Nat) → CmdResult (List Byte)
  | _, 0 => .ok []
  | c, n + 1 =>
    match Memory.read raw c with
    | none => .fault (.commandReadUninitialised .raw c)
    | some v =>
      if v ≠ white ∧ v ≠ black then .error .rawValue c
      else (checkRaw raw (c + 1) n).bind fun rest => .ok (v :: rest)

/-- The `n` PBM cells from `j` on: every byte value is legal (41_pbm_codec R170). -/
def readPbm (pbm : List Host.Cell) : (j n : Nat) → CmdResult (List Byte)
  | _, 0 => .ok []
  | j, n + 1 =>
    match Memory.read pbm j with
    | none => .fault (.commandReadUninitialised .pbm j)
    | some v => (readPbm pbm (j + 1) n).bind fun rest => .ok (v :: rest)

/-- The loop of `check_rle(w)` (40_rle_codec R119) at index `i` with the sum so far; `left` is
`RLE_CAP - i`. It gives the run lengths it read. -/
def checkRuns (rle : List (Nat × Word)) (w : Nat) : (left i sum : Nat) → CmdResult (List Nat)
  | 0, i, _ => .error .rleNoSentinel i
  | left + 1, i, sum =>
    match Memory.read rle i with
    | none => .fault (.commandReadUninitialised .rle i)
    | some x =>
      if toS32 x = -1 then
        if sum = w then .ok [] else .error .rleSum i
      else if toS32 x < 1 ∨ (w : Int) < toS32 x then .error .rleRun i
      else if (w : Int) - (sum : Int) < toS32 x then .error .rleSum i
      else (checkRuns rle w left (i + 1) (sum + (toS32 x).toNat)).bind fun rest =>
        .ok ((toS32 x).toNat :: rest)

/-- `check_rle(w)` (40_rle_codec R119). It gives the leading pixel and the run lengths of the row. -/
def checkRle (s : State) (w : Nat) : CmdResult (Byte × List Nat) :=
  match Memory.read s.rle 0 with
  | none => .fault (.commandReadUninitialised .rle 0)
  | some x =>
    if toS32 x ≠ 0 ∧ toS32 x ≠ 1 then .error .rleLead 0
    else (checkRuns s.rle w (s.params.rleCap - 1) 1 0).bind fun runs => .ok (x.setWidth 8, runs)

/-- The loop of `scan_sentinel()` (40_rle_codec R121) at index `i`; `left` is `RLE_CAP - i`. -/
def scanFrom (rle : List (Nat × Word)) : (left i : Nat) → CmdResult Nat
  | 0, i => .error .rleNoSentinel i
  | left + 1, i =>
    match Memory.read rle i with
    | none => .fault (.commandReadUninitialised .rle i)
    | some x => if x = sentinel then .ok i else scanFrom rle left (i + 1)

/-- `scan_sentinel()` (40_rle_codec R121): it starts at index 1 and reads neither WIDTH nor `RLE[0]`. -/
def scanSentinel (s : State) : CmdResult Nat := scanFrom s.rle (s.params.rleCap - 1) 1

/-! ### Rows -/

/-- `runList` (40_rle_codec R115) inside a run of the pixel `p` that is `len` long so far. -/
def runsFrom (p : Byte) : (len : Nat) → List Byte → List Nat
  | len, [] => [len]
  | len, q :: rest => if q = p then runsFrom p (len + 1) rest else len :: runsFrom q 1 rest

/-- `runList(p)`: the lengths of the maximal runs, from left to right (40_rle_codec R115). -/
def runList : List Byte → List Nat
  | [] => []
  | p :: rest => runsFrom p 1 rest

/-- An RLE row as it stands in the buffer: leading value, run lengths, SENTINEL (40_rle_codec R110). -/
def rleRow (v : Byte) (runs : List Nat) : List Word := v.setWidth 32 :: (runs.map toU32 ++ [sentinel])

/-- `encode(p)` (40_rle_codec R116); a row has at least one pixel. -/
def rleEncode : List Byte → List Word
  | [] => []
  | p :: rest => rleRow p (runList (p :: rest))

/-- `decode` (40_rle_codec R120): every run expanded, the value flipping after each. -/
def expandRuns : (v : Byte) → List Nat → List Byte
  | _, [] => []
  | v, r :: rest => List.replicate r v ++ expandRuns (1#8 - v) rest

/-- `ceil(w / 8)`: the bytes of a scanline for width `w` (41_pbm_codec R160). -/
def scanlineBytes (w : Nat) : Nat := (w + 7) / 8

/-- Byte `j` of `pack(p)`: column `8j + b` is bit `7 - b`, a column at or past the width leaves 0 (41_pbm_codec
R161, R163, R164). -/
def packByte (p : List Byte) (j : Nat) : Byte :=
  (List.range 8).foldl (fun byte b => if p[8 * j + b]? = some black then byte ||| BitVec.twoPow 8 (7 - b) else byte)
    0x00#8

/-- `pack(p)` (41_pbm_codec R164). -/
def packRow (p : List Byte) : List Byte := (List.range (scanlineBytes p.length)).map (packByte p)

/-- Column `c` of `unpack(s, w)`: bit `7 - (c mod 8)` of byte `c div 8` (41_pbm_codec R164). -/
def unpackPixel (bytes : List Byte) (c : Nat) : Byte :=
  if (bytes.getD (c / 8) 0#8).getLsbD (7 - c % 8) then black else white

/-- `unpack(s, w)` (41_pbm_codec R164). -/
def unpackRow (bytes : List Byte) (w : Nat) : List Byte := (List.range w).map (unpackPixel bytes)

end Sys2Proof.Machine
end

