-- ==== Sys2Proof/Machine/PbmCodec.lean ====
section
/-! DEFINITION. The two commands of the scanline codec (41_pbm_codec R165, R170). -/

namespace Sys2Proof.Machine

/-- PACK (41_pbm_codec R165): RESULT is `nb`; the count is `w + nb`. -/
def execPack (s : State) : Host.Outcome State Fault Refusal :=
  conclude s <| (checkWidth s).bind fun w => (checkRaw s.raw 0 w).bind fun row =>
    .ok ⟨commitPbm (packRow row) (scanlineBytes w) s, w + scanlineBytes w⟩

/-- UNPACK (41_pbm_codec R170): RESULT is `w`; the count is `nb + w`. -/
def execUnpack (s : State) : Host.Outcome State Fault Refusal :=
  conclude s <| (checkWidth s).bind fun w => (readPbm s.pbm 0 (scanlineBytes w)).bind fun bytes =>
    .ok ⟨commitRaw (unpackRow bytes w) w s, scanlineBytes w + w⟩

end Sys2Proof.Machine
end

