-- ==== Sys2Proof/Machine/RleCodec.lean ====
section
/-! DEFINITION. The five commands of the row codec (40_rle_codec R130 to R148). Each is the whole ENGINE step
of its command: checks, commit, RESULT (60_exceptions R206), count (R214), completion (R205). -/

namespace Sys2Proof.Machine

/-- RUNCOUNT (40_rle_codec R130): RESULT is `k`; the count is `w`. -/
def execRuncount (s : State) : Host.Outcome State Fault Refusal :=
  conclude s <| (checkWidth s).bind fun w => (checkRaw s.raw 0 w).bind fun row =>
    .ok ⟨commitCount (runList row).length s, w⟩

/-- COMPRESS (40_rle_codec R135): RESULT is `k + 2`; the count is `w + k + 2`. -/
def execCompress (s : State) : Host.Outcome State Fault Refusal :=
  conclude s <| (checkWidth s).bind fun w => (checkRaw s.raw 0 w).bind fun row =>
    .ok ⟨commitRle (rleEncode row) ((runList row).length + 2) s, w + (runList row).length + 2⟩

/-- DECOMPRESS (40_rle_codec R140): RESULT is `w`; the count is `k + 2 + w`. -/
def execDecompress (s : State) : Host.Outcome State Fault Refusal :=
  conclude s <| (checkWidth s).bind fun w => (checkRle s w).bind fun x =>
    .ok ⟨commitRaw (expandRuns x.1 x.2) w s, x.2.length + 2 + w⟩

/-- SIZEOF (40_rle_codec R145): RESULT is `i + 1`; the count is `i`. -/
def execSizeof (s : State) : Host.Outcome State Fault Refusal :=
  conclude s <| (scanSentinel s).bind fun i => .ok ⟨commitCount (i + 1) s, i⟩

/-- RUNSOF (40_rle_codec R148): RESULT is `i - 1`; the count is `i`. -/
def execRunsof (s : State) : Host.Outcome State Fault Refusal :=
  conclude s <| (scanSentinel s).bind fun i => .ok ⟨commitCount (i - 1) s, i⟩

end Sys2Proof.Machine
end

