-- ==== Sys2Proof/Machine/Engine.lean ====
section
/-! DEFINITION. The ENGINE's one kind of step, `complete()` (60_exceptions R205). -/

namespace Sys2Proof.Machine

/-- `complete()` (60_exceptions R205): decode LCMD; a reserved word completes with BAD_COMMAND (30_encoding
R95), a command runs. -/
def engineStep (s : State) : Host.Outcome State Fault Refusal :=
  match decode s.lcmd with
  | .badCommand => .next (completeError .badCommand 0 s)
  | .command i => exec i s

end Sys2Proof.Machine
end

