-- ==== Sys2Proof/Machine/Bus.lean ====
section
/-! DEFINITION. How the HOST reaches the state: the address map (20_memory R61), widths and alignment (R64,
R65), lanes (R66 to R69), reads (R72, R73; 70_reset R241) and writes (70_reset R240). -/

namespace Sys2Proof.Machine

/-- What a mapped offset is (20_memory R61): one of the ten registers, or word `m` of a buffer region. -/
inductive BusTarget where
  | id
  | caps
  | stride
  | ctrl
  | cmd
  | status
  | width
  | result
  | errinfo
  | accessCount
  | raw (m : Nat)
  | rle (i : Nat)
  | pbm (m : Nat)
  deriving DecidableEq, Repr

/-- Where a transaction goes. -/
inductive BusDecode where
  /-- The address is outside the window: not this block's transaction (20_memory R62). -/
  | outside
  /-- The response is BUSERR (60_exceptions R200). -/
  | busErr
  /-- The transaction reaches `t`. -/
  | hit (t : BusTarget)
  deriving DecidableEq, Repr

/-- `ceil4(n)` (20_memory R61). -/
def ceil4 (n : Nat) : Nat := 4 * ((n + 3) / 4)

/-- The registers of 20_memory R61; every other offset of the control region is unmapped (R63). -/
def registerAt : Nat → Option BusTarget
  | 0x00 => some .id
  | 0x04 => some .caps
  | 0x08 => some .stride
  | 0x0C => some .ctrl
  | 0x10 => some .cmd
  | 0x14 => some .status
  | 0x18 => some .width
  | 0x1C => some .result
  | 0x20 => some .errinfo
  | 0x24 => some .accessCount
  | _ => none

/-- The target of a word-aligned offset inside the window; `none` is unmapped (20_memory R61, R63). -/
def targetAt (p : Params) (off : Nat) : Option BusTarget :=
  if off < 0x100 then registerAt off
  else if p.stride ≤ off ∧ off < p.stride + ceil4 p.rawCap then some (.raw ((off - p.stride) / 4))
  else if 2 * p.stride ≤ off ∧ off < 2 * p.stride + 4 * p.rleCap then some (.rle ((off - 2 * p.stride) / 4))
  else if 3 * p.stride ≤ off ∧ off < 3 * p.stride + ceil4 p.pbmCap then some (.pbm ((off - 3 * p.stride) / 4))
  else none

/-- Where a transaction of `n` bytes at the bus address `addr` goes (20_memory R60 to R65). -/
def busDecode (p : Params) (addr n : Nat) : BusDecode :=
  if addr < p.base ∨ p.base + 4 * p.stride ≤ addr then .outside
  else if n ≠ 4 then .busErr
  else if (addr - p.base) % 4 ≠ 0 then .busErr
  else match targetAt p (addr - p.base) with
    | none => .busErr
    | some t => .hit t

/-! ### Lanes -/

/-- The byte of a lane: 0x00 for a padding lane (20_memory R67), else the cell, `none` if uninitialised. -/
def laneByte (cap : Nat) (cells : List Host.Cell) (index : Nat) : Option Byte :=
  if cap ≤ index then some 0x00#8 else Memory.read cells index

/-- The word of four byte cells in little-endian lane order (20_memory R66, R69), or the lowest
uninitialised non-padding lane (70_reset R232 a). -/
def laneWord (b : Buffer) (cap : Nat) (cells : List Host.Cell) (m : Nat) : Except Fault Word :=
  match laneByte cap cells (4 * m), laneByte cap cells (4 * m + 1), laneByte cap cells (4 * m + 2),
      laneByte cap cells (4 * m + 3) with
  | some b0, some b1, some b2, some b3 => .ok (b3 ++ b2 ++ b1 ++ b0)
  | none, _, _, _ => .error (.hostReadUninitialised b (4 * m))
  | some _, none, _, _ => .error (.hostReadUninitialised b (4 * m + 1))
  | some _, some _, none, _ => .error (.hostReadUninitialised b (4 * m + 2))
  | some _, some _, some _, none => .error (.hostReadUninitialised b (4 * m + 3))

/-- Stores one lane, unless it is a padding lane (20_memory R67). -/
def storeLane (cap : Nat) (cells : List Host.Cell) (index : Nat) (v : Byte) : List Host.Cell :=
  if cap ≤ index then cells else Memory.write cells index v

/-- Stores the four lanes of a word, little-endian (20_memory R66, R69). -/
def storeLanes (cap : Nat) (cells : List Host.Cell) (m : Nat) (v : Word) : List Host.Cell :=
  storeLane cap (storeLane cap (storeLane cap (storeLane cap cells (4 * m) (v.extractLsb 7 0)) (4 * m + 1)
    (v.extractLsb 15 8)) (4 * m + 2) (v.extractLsb 23 16)) (4 * m + 3) (v.extractLsb 31 24)

/-! ### Reads -/

/-- What a read gives: a value of the state, any value (70_reset R241), or a fault (R232 a). -/
inductive BusRead where
  | value (v : Word)
  | anyValue
  | fault (f : Fault)
  deriving DecidableEq, Repr

/-- A read that gives the word, or the fault at an uninitialised cell. -/
def BusRead.ofExcept : Except Fault Word → BusRead
  | .ok v => .value v
  | .error f => .fault f

/-- The whole cell `RLE[i]` (20_memory R68), or the fault of 70_reset R232 a. -/
def elementWord (rle : List (Nat × Word)) (i : Nat) : Except Fault Word :=
  match Memory.read rle i with
  | some v => .ok v
  | none => .error (.hostReadUninitialised .rle i)

/-- The data word of a read of `t` (10_state R22 to R31). While BUSY = 1 a buffer word and ACCESS_COUNT read as
any value (70_reset R241; the whole word, log 9). -/
def readTarget (t : BusTarget) (s : State) : BusRead :=
  match t with
  | .id => .value idValue
  | .caps => .value (toU32 s.params.maxWidth)
  | .stride => .value (toU32 s.params.stride)
  | .ctrl => .value (ctrlWord s)
  | .cmd => .value 0x00000000#32
  | .status => .value (statusWord s)
  | .width => .value s.width
  | .result => .value s.result
  | .errinfo => .value s.errinfo
  | .accessCount => if s.busy then .anyValue else .value s.acount
  | .raw m => if s.busy then .anyValue else .ofExcept (laneWord .raw s.params.rawCap s.raw m)
  | .rle i => if s.busy then .anyValue else .ofExcept (elementWord s.rle i)
  | .pbm m => if s.busy then .anyValue else .ofExcept (laneWord .pbm s.params.pbmCap s.pbm m)

/-- `tN <- MemRead(addr, n)` (00_scope R12). A read has no side effect on the block (20_memory R72). -/
def memRead (addr n : Nat) (t : Fin 16) (s : State) : Host.Outcome State Fault Refusal :=
  match busDecode s.params addr n with
  | .outside => .refused (.outsideWindow addr)
  | .busErr => .fault .busError
  | .hit target =>
    match readTarget target s with
    | .value v => .next (setScratch t v s)
    | .anyValue => .next (setScratch t (Config.freeWord s.draws) { s with draws := s.draws + 1 })
    | .fault f => .fault f

/-! ### Writes -/

/-- A write of `v` to a target that takes writes only while BUSY = 0, `store` being what it then does
(70_reset R240). -/
def writeIdle (s stored : State) : State := if s.busy then dropWrite s else stored

/-- A write of the word `v` to `t` (10_state R22 to R32; 70_reset R240). -/
def writeTarget (t : BusTarget) (v : Word) (s : State) : State :=
  match t with
  | .id => s
  | .caps => s
  | .stride => s
  | .ctrl => writeCtrl v s
  | .cmd => writeIdle s (issue v s)
  | .status => writeStatus v s
  | .width => writeIdle s { s with width := v }
  | .result => s
  | .errinfo => s
  | .accessCount => writeIdle s { s with acount := v }
  | .raw m => writeIdle s { s with raw := storeLanes s.params.rawCap s.raw m v }
  | .rle i => writeIdle s { s with rle := Memory.write s.rle i v }
  | .pbm m => writeIdle s { s with pbm := storeLanes s.params.pbmCap s.pbm m v }

/-- `MemWrite(addr, n, v)` (00_scope R12). -/
def memWrite (addr n : Nat) (v : Word) (s : State) : Host.Outcome State Fault Refusal :=
  match busDecode s.params addr n with
  | .outside => .refused (.outsideWindow addr)
  | .busErr => .fault .busError
  | .hit target => .next (writeTarget target v s)

end Sys2Proof.Machine
end

