-- ==== Sys2Proof/Machine/HostAgent.lean ====
section
/-! DEFINITION. The HOST as an agent: one line of its program (00_scope R15), and which agent moves next
(00_scope R9; 60_exceptions R205, R212). -/

namespace Sys2Proof.Machine

/-- Who takes the next step. -/
inductive Agent where
  | engine
  | host
  | idle
  deriving DecidableEq, Repr

/-- The HOST has no line to run: it has halted, or its program has no such line (log 14). -/
def hostEnded (s : State) : Bool :=
  match s.program[s.hostPc]? with
  | none => true
  | some .halt => true
  | some _ => false

/-- The ENGINE is enabled exactly when BUSY = 1 (60_exceptions R205). It waits until the latency drawn at the
issue has passed, and no longer than the HOST has lines to run: the completion is eventually taken (log 2).
With neither agent enabled the block keeps its state (R218; log 5). -/
def nextAgent (s : State) : Agent :=
  if s.busy = true ∧ (s.wait = 0 ∨ hostEnded s = true) then .engine
  else if hostEnded s then .idle
  else .host

/-- What one line of the program does, the HOST having left it (00_scope R12, R15; 70_reset R230). -/
def runHostOp (op : HostOp) (s : State) : Host.Outcome State Fault Refusal :=
  match op with
  | .wr off v => memWrite (s.params.base + off) 4 v s
  | .rd off t => memRead (s.params.base + off) 4 t s
  | .bnz t mask label => .next (if s.scratch[t] &&& mask ≠ 0#32 then hostGoto label s else s)
  | .bz t mask label => .next (if s.scratch[t] &&& mask = 0#32 then hostGoto label s else s)
  | .halt => .next s
  | .memRead addr n t => memRead addr n t s
  | .memWrite addr n v => memWrite addr n v s
  | .powerOnReset => .next (powerOnReset s)

/-- One HOST step: the line at `hostPc`. A HOST that has ended stays where it is. -/
def hostStep (s : State) : Host.Outcome State Fault Refusal :=
  match s.program[s.hostPc]? with
  | none => .next s
  | some .halt => .next s
  | some op => runHostOp op (hostAdvance s)

end Sys2Proof.Machine
end

