-- ==== Sys2Proof/Machine/Step.lean ====
section
/-! DEFINITION. One step of the machine: the agent whose turn it is takes one atomic step (20_memory R71;
60_exceptions R212). -/

namespace Sys2Proof.Machine

/-- One step: a completion, a HOST step, or, with no agent enabled, nothing. -/
def step (s : State) : Host.Outcome State Fault Refusal :=
  match nextAgent s with
  | .engine => engineStep s
  | .host => hostStep s
  | .idle => .next s

/-- `s` just after the command word `w` was issued (60_exceptions R204) with no latency left, so that the
very next step completes it; the word takes the place of a host's write to CMD (log 13). -/
def State.withFetchWord (s : State) (nbits w : Nat) : State :=
  { issue (BitVec.ofNat 32 (w % 2 ^ nbits)) s with wait := 0, draws := s.draws }

end Sys2Proof.Machine
end

