-- ==== Sys2Proof/Safety.lean ====
section
/-! DEFINITION. The terms claims use: legal widths and valid rows (40_rle_codec R110, R113, R114), what a buffer
holds, how many cells a command stores, and the invariants of the state. -/

namespace Sys2Proof.Machine

/-- A width is legal for a command when `1 <= w <= MAX_WIDTH` (40_rle_codec R114). -/
abbrev LegalWidth (s : State) : Prop := 1 ≤ s.width.toNat ∧ s.width.toNat ≤ s.params.maxWidth

/-- A valid RAW row for width `w` (40_rle_codec R113). -/
abbrev ValidRaw (w : Nat) (p : List Byte) : Prop := p.length = w ∧ ∀ v ∈ p, v = white ∨ v = black

/-- The run lengths of a valid RLE row for width `w` (40_rle_codec R110): at least one run, each between 1
and `w`, with the sum `w`. The row itself is `rleRow v runs` with `v` WHITE or BLACK. -/
abbrev ValidRuns (w : Nat) (runs : List Nat) : Prop :=
  runs ≠ [] ∧ (∀ r ∈ runs, 1 ≤ r ∧ r ≤ w) ∧ runs.sum = w

/-- The cells `0, 1, ...` of a buffer hold the row. -/
abbrev HoldsRow {n : Nat} (m : List (Nat × BitVec n)) (row : List (BitVec n)) : Prop :=
  ∀ c, c < row.length → Memory.read m c = row[c]?

/-- The cells from `bound` on hold what they held. -/
abbrev KeepsFrom {n : Nat} (before after : List (Nat × BitVec n)) (bound : Nat) : Prop :=
  ∀ j, bound ≤ j → Memory.read after j = Memory.read before j

/-- Every cell below the capacity is initialised. -/
abbrev AllInitialised {n : Nat} (cap : Nat) (m : List (Nat × BitVec n)) : Prop :=
  ∀ j, j < cap → (Memory.read m j).isSome = true

/-- The state `s` with a command's success on it, but for the cells it stores (60_exceptions R205, R206, R214). -/
def succeeded (s : State) (result count : Nat) : State :=
  { s with result := toU32 result, acount := s.acount + toU32 count, busy := false, done := true }

/-- The state `s` with a command error on it (60_exceptions R191, R192). -/
def failed (s : State) (code : BitVec 4) (info : Nat) : State :=
  { s with errcode := code, errinfo := toU32 info, busy := false, done := true }

/-- The ENGINE takes the next step of a busy state (60_exceptions R205; log 2). -/
abbrev EngineTurn (s : State) : Prop := s.busy = true ∧ (s.wait = 0 ∨ hostEnded s = true)

/-- How many cells of its destination buffer, from cell 0 on, a command stores in `s`: the row its checks
give, 0 when a check fails (10_state R38; 60_exceptions R192). -/
def storedCells (i : Instr) (s : State) : Nat :=
  match i with
  | .runcount => 0
  | .sizeof => 0
  | .runsof => 0
  | .compress =>
    match (checkWidth s).bind fun w => checkRaw s.raw 0 w with
    | .ok row => (rleEncode row).length
    | .error _ _ => 0
    | .fault _ => 0
  | .decompress =>
    match (checkWidth s).bind fun w => checkRle s w with
    | .ok x => (expandRuns x.1 x.2).length
    | .error _ _ => 0
    | .fault _ => 0
  | .pack =>
    match (checkWidth s).bind fun w => checkRaw s.raw 0 w with
    | .ok row => (packRow row).length
    | .error _ _ => 0
    | .fault _ => 0
  | .unpack =>
    match checkWidth s with
    | .ok w => w
    | .error _ _ => 0
    | .fault _ => 0

/-- The cells of RAW, RLE and PBM that a command may store, from cell 0 on (10_state R37). -/
def storedRaw (i : Instr) (s : State) : Nat :=
  match i with
  | .decompress => storedCells .decompress s
  | .unpack => storedCells .unpack s
  | .runcount | .compress | .sizeof | .runsof | .pack => 0

def storedRle (i : Instr) (s : State) : Nat :=
  match i with
  | .compress => storedCells .compress s
  | .runcount | .decompress | .sizeof | .runsof | .pack | .unpack => 0

def storedPbm (i : Instr) (s : State) : Nat :=
  match i with
  | .pack => storedCells .pack s
  | .runcount | .compress | .decompress | .sizeof | .runsof | .unpack => 0

/-- The first cell of its source buffer that a command reads: the scan does not read `RLE[0]` (40_rle_codec R121). -/
def readsFrom (i : Instr) : Nat :=
  match i with
  | .sizeof | .runsof => 1
  | .runcount | .compress | .decompress | .pack | .unpack => 0

/-- The end of the cells of its source buffer that a command reads in `s`: on success the operands of 30_encoding
R92; on an error the cells up to the one that the error names, none where the width fails, and every cell where the
scan meets no sentinel. A command that faults does not complete, and its cells do not matter here. -/
def readsTo (i : Instr) (s : State) : Nat :=
  match i with
  | .runcount | .compress | .pack =>
    match checkWidth s with
    | .ok w =>
      match checkRaw s.raw 0 w with
      | .ok _ => w
      | .error _ c => c + 1
      | .fault _ => 0
    | .error _ _ => 0
    | .fault _ => 0
  | .decompress =>
    match checkWidth s with
    | .ok w =>
      match checkRle s w with
      | .ok x => x.2.length + 2
      | .error _ j => j + 1
      | .fault _ => 0
    | .error _ _ => 0
    | .fault _ => 0
  | .sizeof | .runsof =>
    match scanSentinel s with
    | .ok j => j + 1
    | .error _ n => n
    | .fault _ => 0
  | .unpack =>
    match checkWidth s with
    | .ok w => scanlineBytes w
    | .error _ _ => 0
    | .fault _ => 0

/-- The cells of a buffer from `lo` up to, and not at, `hi` are the same in both. -/
abbrev SameCells {n : Nat} (m m' : List (Nat × BitVec n)) (lo hi : Nat) : Prop :=
  ∀ j, lo ≤ j → j < hi → Memory.read m' j = Memory.read m j

/-- Two states agree on what the command `i` reads in `s` (30_encoding R92): the width, where the command reads it,
and the cells that its checks read in `s`. Every other cell and register may differ. -/
def SameOperands (i : Instr) (s s' : State) : Prop :=
  s'.params = s.params ∧
  match i with
  | .runcount | .compress | .pack => s'.width = s.width ∧ SameCells s.raw s'.raw (readsFrom i) (readsTo i s)
  | .decompress => s'.width = s.width ∧ SameCells s.rle s'.rle (readsFrom i) (readsTo i s)
  | .sizeof | .runsof => SameCells s.rle s'.rle (readsFrom i) (readsTo i s)
  | .unpack => s'.width = s.width ∧ SameCells s.pbm s'.pbm (readsFrom i) (readsTo i s)

/-! ### What several statements say of a command -/

/-- The width check of 40_rle_codec R117, made before any other (60_exceptions R193). -/
abbrev WidthChecked (i : Instr) (s : State) : Prop :=
  (s.width.toNat = 0 → exec i s = .next (failed s 2#4 0)) ∧
    (s.params.maxWidth < s.width.toNat → exec i s = .next (failed s 3#4 0))

/-- The columns below `c` of the RAW row are legal pixels. -/
abbrev LegalPixelsBelow (s : State) (c : Nat) : Prop :=
  ∀ d, d < c → Memory.read s.raw d = some white ∨ Memory.read s.raw d = some black

/-- The pixel check of 40_rle_codec R118: the lowest offending column is reported. -/
abbrev PixelsChecked (i : Instr) (s : State) : Prop :=
  LegalWidth s → ∀ c x, c < s.width.toNat → LegalPixelsBelow s c → Memory.read s.raw c = some x →
    x ≠ white → x ≠ black → exec i s = .next (failed s 4#4 c)

/-- No cell from index 1 up to, and not at, `i` holds the sentinel, and each is initialised. -/
abbrev NoSentinelBelow (s : State) (i : Nat) : Prop :=
  ∀ j, 1 ≤ j → j < i → ∃ x, Memory.read s.rle j = some x ∧ x ≠ sentinel

/-- The RLE buffer begins with the leading value `v` and the runs `runs`, each at least 1, with a sum that does
not pass the width: what `check_rle` has accepted before it reads index `runs.length + 1` (40_rle_codec R119). -/
abbrev AcceptedRuns (s : State) (v : Byte) (runs : List Nat) : Prop :=
  (v = white ∨ v = black) ∧ (∀ r ∈ runs, 1 ≤ r) ∧ runs.sum ≤ s.width.toNat ∧
    HoldsRow s.rle (v.setWidth 32 :: runs.map toU32)

/-- What `check_rle` raises at index 0, and at the index after the runs it has accepted (40_rle_codec R119). -/
abbrev RleRowChecked (s : State) : Prop :=
  (∀ x, Memory.read s.rle 0 = some x → x ≠ 0#32 → x ≠ 1#32 → exec .decompress s = .next (failed s 5#4 0)) ∧
    ∀ v runs x, AcceptedRuns s v runs → Memory.read s.rle (runs.length + 1) = some x →
      (x = sentinel → runs.sum ≠ s.width.toNat → exec .decompress s = .next (failed s 7#4 (runs.length + 1))) ∧
      (x ≠ sentinel → (toS32 x < 1 ∨ (s.width.toNat : Int) < toS32 x) →
        exec .decompress s = .next (failed s 6#4 (runs.length + 1))) ∧
      (1 ≤ toS32 x → toS32 x ≤ (s.width.toNat : Int) → (s.width.toNat : Int) - (runs.sum : Int) < toS32 x →
        exec .decompress s = .next (failed s 7#4 (runs.length + 1)))

/-- The HOST's next line writes `v` to the target (00_scope R12, R15). -/
abbrev HostWrites (s : State) (target : BusTarget) (v : Word) : Prop :=
  ∃ addr, busDecode s.params addr 4 = .hit target ∧
    (s.program[s.hostPc]? = some (.memWrite addr 4 v) ∨
      ∃ off, addr = s.params.base + off ∧ s.program[s.hostPc]? = some (.wr off v))

/-- The HOST's next line resets the block: the soft reset (70_reset R231) or the platform's (R230). -/
abbrev HostResets (s : State) : Prop :=
  (∃ v, HostWrites s .ctrl v ∧ v.getLsbD 1 = true) ∨ s.program[s.hostPc]? = some .powerOnReset

/-- Every register of the block is at its reset value (10_state R43). -/
abbrev RegistersReset (s : State) : Prop :=
  s.ie = false ∧ s.busy = false ∧ s.done = false ∧ s.werr = false ∧ s.errcode = 0#4 ∧ s.width = 0#32 ∧
    s.result = 0#32 ∧ s.errinfo = 0#32 ∧ s.acount = 0#32 ∧ s.lcmd = 0#32

/-- No cell of any buffer is initialised (70_reset R230). -/
abbrev NothingInitialised (s : State) : Prop :=
  ∀ j, Memory.read s.raw j = none ∧ Memory.read s.rle j = none ∧ Memory.read s.pbm j = none

/-- The HOST's side, the parameters and the model's counters are as they were. -/
abbrev SameOutside (s t : State) : Prop :=
  t.params = s.params ∧ t.program = s.program ∧ t.hostPc = s.hostPc ∧ t.scratch = s.scratch

/-! ### Invariants of the state -/

/-- The three buffers are in canonical form: indices strictly rising and below the capacity. -/
abbrev MemoryCanonical (s : State) : Prop :=
  Memory.wf s.params.rawCap s.raw = true ∧ Memory.wf s.params.rleCap s.rle = true ∧
    Memory.wf s.params.pbmCap s.pbm = true

/-- What the completion fields of every reachable state satisfy: no code above 8 (60_exceptions R191), ERRINFO
0 where there is no error (10_state R30), and a command in flight with DONE, ERRCODE and ERRINFO clear (R204). -/
abbrev StatusConsistent (s : State) : Prop :=
  s.errcode.toNat ≤ 8 ∧ (s.errcode = 0#4 → s.errinfo = 0#32) ∧
    (s.busy = true → s.done = false ∧ s.errcode = 0#4 ∧ s.errinfo = 0#32)

/-- RESULT and ERRINFO never pass RLE_CAP (60_exceptions R191, R206). -/
abbrev CountsBounded (s : State) : Prop :=
  s.result.toNat ≤ s.params.rleCap ∧ s.errinfo.toNat ≤ s.params.rleCap

end Sys2Proof.Machine
end

