-- ==== Sys2Proof/Certificates/Slice0/Obligations.lean ====
section
/-! DEFINITION. The statements for the provers. Each docstring names the rules of spec/ it formalises. -/

open Sys2Proof Sys2Proof.Machine

/-! ### Encoding -/

/-- 30_encoding R94: the word of each command; decoding and encoding agree on every word; exactly the seven words
1 to 7 are commands. -/
def Obligations.DecodeExactlyTheSevenWords : Prop :=
  (encode .runcount = 0x00000001#32 ∧ encode .compress = 0x00000002#32 ∧ encode .decompress = 0x00000003#32 ∧
    encode .sizeof = 0x00000004#32 ∧ encode .runsof = 0x00000005#32 ∧ encode .pack = 0x00000006#32 ∧
    encode .unpack = 0x00000007#32) ∧
  (∀ (w : Word) (i : Instr), decode w = .command i ↔ w = encode i) ∧
  (∀ w : Word, decode w = .badCommand ↔ ¬(1 ≤ w.toNat ∧ w.toNat ≤ 7)) ∧
  (∀ w : Word, (∃ i, decode w = .command i) ↔ 1 ≤ w.toNat ∧ w.toNat ≤ 7)

/-- 30_encoding R93: the words of the opcode map, and some reserved ones, written out. -/
def Obligations.TableWordsDecode : Prop :=
  decode 0x00000001#32 = .command .runcount ∧ decode 0x00000002#32 = .command .compress ∧
  decode 0x00000003#32 = .command .decompress ∧ decode 0x00000004#32 = .command .sizeof ∧
  decode 0x00000005#32 = .command .runsof ∧ decode 0x00000006#32 = .command .pack ∧
  decode 0x00000007#32 = .command .unpack ∧ decode 0x00000000#32 = .badCommand ∧
  decode 0x00000008#32 = .badCommand ∧ decode 0x0000000F#32 = .badCommand ∧
  decode 0x00000012#32 = .badCommand ∧ decode 0xFFFFFFFF#32 = .badCommand

/-! ### Steps and agents -/

/-- 60_exceptions R205: when the ENGINE moves, the step is the completion of LCMD, and where LCMD is a command,
that command's. That the ENGINE moves when `wait` is 0 or the HOST has ended is the model's own (log 2). -/
def Obligations.StepRunsLatchedCommand : Prop :=
  ∀ s : State, EngineTurn s →
    step s = engineStep s ∧ ∀ i : Instr, decode s.lcmd = .command i → step s = exec i s

/-- 30_encoding R95: which words are reserved; a reserved word is issued like any other and completes with
BAD_COMMAND, whatever WIDTH and the buffers hold, changing nothing but the completion fields. -/
def Obligations.ReservedWordCompletesBadCommand : Prop :=
  (∀ v : Word, decode v = .badCommand ↔
    v.extractLsb 31 4 ≠ 0#28 ∨ (v.extractLsb 3 0).toNat = 0 ∨ 8 ≤ (v.extractLsb 3 0).toNat) ∧
  ∀ v : Word, decode v = .badCommand →
    (∀ s : State, s.busy = false → ∃ t, memWrite (s.params.base + 0x10) 4 v s = .next t ∧
      t.lcmd = v ∧ t.busy = true) ∧
    (∀ s : State, s.lcmd = v →
      engineStep s = .next { s with errcode := 1#4, errinfo := 0#32, busy := false, done := true })

/-- 00_scope R15, 60_exceptions R218: on the HOST's turn a step is its line, and with no agent enabled the
state stays. Whose turn it is, is the model's own (logs 2, 4, 5). -/
def Obligations.HostLineRunsOnItsTurn : Prop :=
  (∀ (s : State) (op : HostOp), s.program[s.hostPc]? = some op → op ≠ .halt →
    (s.busy = false ∨ s.wait ≠ 0) →
    step s = runHostOp op { s with hostPc := s.hostPc + 1, wait := s.wait - 1 }) ∧
  (∀ s : State, s.busy = false → hostEnded s = true → step s = .next s)

/-- 00_scope R15: what each line of the host notation does. That labels are line numbers is the model's own
(log 14). -/
def Obligations.HostNotationLines : Prop :=
  ∀ (s : State) (off n label : Nat) (t : Fin 16) (mask v : Word),
    runHostOp (.wr off v) s = memWrite (s.params.base + off) 4 v s ∧
    runHostOp (.rd off t) s = memRead (s.params.base + off) 4 t s ∧
    runHostOp (.memWrite off n v) s = memWrite off n v s ∧
    runHostOp (.memRead off n t) s = memRead off n t s ∧
    (s.scratch[t] &&& mask ≠ 0#32 → runHostOp (.bnz t mask label) s = .next { s with hostPc := label }) ∧
    (s.scratch[t] &&& mask = 0#32 → runHostOp (.bnz t mask label) s = .next s) ∧
    (s.scratch[t] &&& mask = 0#32 → runHostOp (.bz t mask label) s = .next { s with hostPc := label }) ∧
    (s.scratch[t] &&& mask ≠ 0#32 → runHostOp (.bz t mask label) s = .next s) ∧
    (s.program[s.hostPc]? = some .halt → hostEnded s = true)

/-- 60_exceptions R205, the fairness assumption: a command in flight meets its completion, or leaves flight by a
reset, within `wait` HOST steps, unless the HOST's program stops the run first. -/
def Obligations.CompletionEventuallyTaken : Prop :=
  ∀ s : State, s.busy = true →
    (∃ k t, k ≤ s.wait ∧ core.run k s = .next t ∧ (t.busy = false ∨ nextAgent t = .engine)) ∨
    (∃ k, k ≤ s.wait ∧ ∀ t, core.run k s ≠ .next t)

/-- 60_exceptions R212: when a completion and a HOST line are both possible, either may come first. -/
def Obligations.EitherOrderAdmitted : Prop :=
  ∀ s : State, s.busy = true → hostEnded s = false →
    nextAgent { s with wait := 0 } = .engine ∧ ∀ n, nextAgent { s with wait := n + 1 } = .host

/-! ### The commands -/

/-- 40_rle_codec R130, whole: encoding, checks, result and count of RUNCOUNT. -/
def Obligations.RuncountRule : Prop :=
  encode .runcount = 0x00000001#32 ∧
  ∀ s : State, WidthChecked .runcount s ∧ PixelsChecked .runcount s ∧
    (LegalWidth s → ∀ p, ValidRaw s.width.toNat p → HoldsRow s.raw p →
      exec .runcount s = .next (succeeded s (runList p).length s.width.toNat))

/-- 40_rle_codec R135, whole: encoding, checks, cells, result and count of COMPRESS. -/
def Obligations.CompressRule : Prop :=
  encode .compress = 0x00000002#32 ∧
  ∀ s : State, WidthChecked .compress s ∧ PixelsChecked .compress s ∧
    (LegalWidth s → ∀ p, ValidRaw s.width.toNat p → HoldsRow s.raw p →
      ∃ rle', exec .compress s = .next { succeeded s ((runList p).length + 2)
          (s.width.toNat + (runList p).length + 2) with rle := rle' } ∧
        HoldsRow rle' (rleEncode p) ∧ (rleEncode p).length = (runList p).length + 2 ∧
        KeepsFrom s.rle rle' ((runList p).length + 2))

/-- 40_rle_codec R140, whole: encoding, checks, cells, result and count of DECOMPRESS. -/
def Obligations.DecompressRule : Prop :=
  encode .decompress = 0x00000003#32 ∧
  ∀ s : State, WidthChecked .decompress s ∧
    (s.params.wf = true → LegalWidth s → RleRowChecked s ∧
      ∀ v runs, (v = white ∨ v = black) → ValidRuns s.width.toNat runs → HoldsRow s.rle (rleRow v runs) →
        ∃ raw', exec .decompress s = .next { succeeded s s.width.toNat
            (runs.length + 2 + s.width.toNat) with raw := raw' } ∧
          HoldsRow raw' (expandRuns v runs) ∧ (expandRuns v runs).length = s.width.toNat ∧
          KeepsFrom s.raw raw' s.width.toNat)

/-- 40_rle_codec R145, whole: encoding, result, count and error of SIZEOF; WIDTH is not read. -/
def Obligations.SizeofRule : Prop :=
  encode .sizeof = 0x00000004#32 ∧
  ∀ s : State,
    (∀ i, 1 ≤ i → i < s.params.rleCap → NoSentinelBelow s i → Memory.read s.rle i = some 0xFFFFFFFF#32 →
      exec .sizeof s = .next (succeeded s (i + 1) i)) ∧
    (NoSentinelBelow s s.params.rleCap → exec .sizeof s = .next (failed s 8#4 s.params.rleCap))

/-- 40_rle_codec R148, whole: encoding, result, count and error of RUNSOF; WIDTH is not read. -/
def Obligations.RunsofRule : Prop :=
  encode .runsof = 0x00000005#32 ∧
  ∀ s : State,
    (∀ i, 1 ≤ i → i < s.params.rleCap → NoSentinelBelow s i → Memory.read s.rle i = some 0xFFFFFFFF#32 →
      exec .runsof s = .next (succeeded s (i - 1) i)) ∧
    (NoSentinelBelow s s.params.rleCap → exec .runsof s = .next (failed s 8#4 s.params.rleCap))

/-- 41_pbm_codec R165, whole: encoding, checks, cells, result and count of PACK. -/
def Obligations.PackRule : Prop :=
  encode .pack = 0x00000006#32 ∧
  ∀ s : State, WidthChecked .pack s ∧ PixelsChecked .pack s ∧
    (LegalWidth s → ∀ p, ValidRaw s.width.toNat p → HoldsRow s.raw p →
      ∃ pbm', exec .pack s = .next { succeeded s ((s.width.toNat + 7) / 8)
          (s.width.toNat + (s.width.toNat + 7) / 8) with pbm := pbm' } ∧
        HoldsRow pbm' (packRow p) ∧ (packRow p).length = (s.width.toNat + 7) / 8 ∧
        KeepsFrom s.pbm pbm' ((s.width.toNat + 7) / 8))

/-- 41_pbm_codec R170, whole: encoding, check, cells, result and count of UNPACK. -/
def Obligations.UnpackRule : Prop :=
  encode .unpack = 0x00000007#32 ∧
  ∀ s : State, WidthChecked .unpack s ∧
    (LegalWidth s → ∀ bytes, bytes.length = (s.width.toNat + 7) / 8 → HoldsRow s.pbm bytes →
      ∃ raw', exec .unpack s = .next { succeeded s s.width.toNat
          ((s.width.toNat + 7) / 8 + s.width.toNat) with raw := raw' } ∧
        HoldsRow raw' (unpackRow bytes s.width.toNat) ∧
        (unpackRow bytes s.width.toNat).length = s.width.toNat ∧ KeepsFrom s.raw raw' s.width.toNat)

/-- 40_rle_codec R119: the row check of DECOMPRESS raises at the lowest offending index, by what stands there; it
passes exactly the valid rows, and gives the number of runs. -/
def Obligations.RleRowChecks : Prop :=
  ∀ s : State, s.params.wf = true → LegalWidth s →
    RleRowChecked s ∧
    (∀ v runs, (v = white ∨ v = black) → ValidRuns s.width.toNat runs → HoldsRow s.rle (rleRow v runs) →
      checkRle s s.width.toNat = .ok (v, runs)) ∧
    (∀ v runs, checkRle s s.width.toNat = .ok (v, runs) →
      (v = white ∨ v = black) ∧ ValidRuns s.width.toNat runs ∧ HoldsRow s.rle (rleRow v runs))

/-- 40_rle_codec R122: the row check of a legal width never raises RLE_NO_SENTINEL, and raises at an index below
RLE_CAP; no command but SIZEOF and RUNSOF reports that code. The premise on ERRCODE is that of a command in flight
(60_exceptions R204; `StepKeepsStatusConsistent`). -/
def Obligations.NoSentinelErrorOnlyFromScan : Prop :=
  (∀ (s : State) (e : CmdError) (n : Nat), LegalWidth s → checkRle s s.width.toNat = .error e n →
    e ≠ .rleNoSentinel ∧ n ≤ s.width.toNat + 1 ∧ s.width.toNat + 1 < s.params.rleCap) ∧
  (∀ (i : Instr) (s t : State), i ≠ .sizeof → i ≠ .runsof → s.errcode = 0#4 → exec i s = .next t →
    t.errcode ≠ 8#4)

/-- 70_reset R232 (b): a command that reads an uninitialised cell is a fault. Which cell the fault names (the
first in the order of the pseudocode) is the model's own (log 7). -/
def Obligations.UninitialisedCellFaultsCommand : Prop :=
  ∀ s : State,
    (LegalWidth s → ∀ c, c < s.width.toNat → LegalPixelsBelow s c → Memory.read s.raw c = none →
      ∀ i, i = .runcount ∨ i = .compress ∨ i = .pack →
        exec i s = .fault (.commandReadUninitialised .raw c)) ∧
    (LegalWidth s → ∀ j, j < (s.width.toNat + 7) / 8 → AllInitialised j s.pbm → Memory.read s.pbm j = none →
      exec .unpack s = .fault (.commandReadUninitialised .pbm j)) ∧
    (∀ j, 1 ≤ j → j < s.params.rleCap → NoSentinelBelow s j → Memory.read s.rle j = none →
      exec .sizeof s = .fault (.commandReadUninitialised .rle j) ∧
      exec .runsof s = .fault (.commandReadUninitialised .rle j)) ∧
    (LegalWidth s → Memory.read s.rle 0 = none →
      exec .decompress s = .fault (.commandReadUninitialised .rle 0)) ∧
    (s.params.wf = true → LegalWidth s → ∀ v runs, AcceptedRuns s v runs →
      Memory.read s.rle (runs.length + 1) = none →
      exec .decompress s = .fault (.commandReadUninitialised .rle (runs.length + 1)))

/-- 60_exceptions R190, 70_reset R232 (b): a command never refuses, and the only thing that stops it is a cell
it reads that is uninitialised. -/
def Obligations.CommandsStopOnlyAtUninitialisedCells : Prop :=
  ∀ (i : Instr) (s : State),
    (∀ r, exec i s ≠ .refused r) ∧
    (∀ f, exec i s = .fault f →
      (∃ j, f = .commandReadUninitialised .raw j ∧ j < s.params.rawCap ∧ Memory.read s.raw j = none) ∨
      (∃ j, f = .commandReadUninitialised .rle j ∧ j < s.params.rleCap ∧ Memory.read s.rle j = none) ∨
      (∃ j, f = .commandReadUninitialised .pbm j ∧ j < s.params.pbmCap ∧ Memory.read s.pbm j = none))

/-- 60_exceptions R190: with every buffer cell initialised, every command completes, whatever WIDTH, the cells
and the status hold. -/
def Obligations.InitialisedBuffersAlwaysComplete : Prop :=
  ∀ (i : Instr) (s : State), AllInitialised s.params.rawCap s.raw → AllInitialised s.params.rleCap s.rle →
    AllInitialised s.params.pbmCap s.pbm →
    ∃ t, exec i s = .next t ∧ t.busy = false ∧ t.done = true

/-- 60_exceptions R192: a command, or a reserved word, that completes with an error changes only BUSY, DONE, ERRCODE
and ERRINFO. The premise on ERRCODE is that of a command in flight (R204; `StepKeepsStatusConsistent`). -/
def Obligations.FailedCommandChangesNothingElse : Prop :=
  ∀ s t : State, s.errcode = 0#4 → engineStep s = .next t → t.errcode ≠ 0#4 →
    t = { s with busy := false, done := true, errcode := t.errcode, errinfo := t.errinfo }

/-- 60_exceptions R209, R210: the registers a command of each kind leaves as they were. -/
def Obligations.CommandRegisterFrame : Prop :=
  ∀ (i : Instr) (s t : State), exec i s = .next t →
    t = { s with raw := t.raw, rle := t.rle, pbm := t.pbm, result := t.result, acount := t.acount,
                 errcode := t.errcode, errinfo := t.errinfo, busy := false, done := true }

/-- 10_state R37, R38: a command leaves the buffers it does not write, and every cell of its destination past
the row it stores, as they were. `storedRaw`, `storedRle`, `storedPbm` compute where the stored cells end. -/
def Obligations.CommandBufferFrame : Prop :=
  ∀ (i : Instr) (s t : State), exec i s = .next t →
    KeepsFrom s.raw t.raw (storedRaw i s) ∧ KeepsFrom s.rle t.rle (storedRle i s) ∧
    KeepsFrom s.pbm t.pbm (storedPbm i s) ∧
    (i ≠ .decompress → i ≠ .unpack → t.raw = s.raw) ∧ (i ≠ .compress → t.rle = s.rle) ∧
    (i ≠ .pack → t.pbm = s.pbm)

/-- 40_rle_codec R153: a command's outputs are a function of its operands alone. The two states need agree only on
the cells that the command reads in the first (`SameOperands`): cells past the row or past the sentinel, the other
buffers and the other registers may differ. -/
def Obligations.OutputsDependOnlyOnOperands : Prop :=
  ∀ (i : Instr) (s s' t : State), SameOperands i s s' → s.errcode = 0#4 → s'.errcode = 0#4 →
    exec i s = .next t → ∃ t', exec i s' = .next t' ∧ t'.errcode = t.errcode ∧
      (t.errcode ≠ 0#4 → t'.errinfo = t.errinfo) ∧
      (t.errcode = 0#4 → t'.result = t.result ∧ t'.acount - s'.acount = t.acount - s.acount) ∧
      storedCells i s' = storedCells i s ∧
      (∀ j, j < storedRaw i s → Memory.read t'.raw j = Memory.read t.raw j) ∧
      (∀ j, j < storedRle i s → Memory.read t'.rle j = Memory.read t.rle j) ∧
      (∀ j, j < storedPbm i s → Memory.read t'.pbm j = Memory.read t.pbm j)

/-- 60_exceptions R214, 00_scope R11: a completion with success adds to ACCESS_COUNT one for each cell the command
reads (from `readsFrom` to `readsTo`) and one for each cell it stores, modulo 2^32; one with an error adds 0. The
premise on ERRCODE is that of a command in flight (R204; `StepKeepsStatusConsistent`). -/
def Obligations.AccessCountCountsCells : Prop :=
  ∀ (i : Instr) (s t : State), s.errcode = 0#4 → exec i s = .next t →
    (t.errcode = 0#4 → readsFrom i ≤ readsTo i s ∧
      t.acount = s.acount + toU32 (readsTo i s - readsFrom i + storedCells i s)) ∧
    (t.errcode ≠ 0#4 → t.acount = s.acount)

/-! ### Rows -/

/-- 40_rle_codec R115: `runList` gives the maximal runs from left to right: each between 1 and `w`, with the sum `w`,
and a run after the first begins at column `c` exactly where the pixel differs from the one before. -/
def Obligations.RunListIsMaximalRuns : Prop :=
  ∀ p : List Byte, p ≠ [] →
    (∀ r ∈ runList p, 1 ≤ r ∧ r ≤ p.length) ∧ (runList p).sum = p.length ∧
    1 ≤ (runList p).length ∧ (runList p).length ≤ p.length ∧
    ∀ c, c + 1 < p.length →
      (p[c + 1]? ≠ p[c]? ↔ ∃ i, 1 ≤ i ∧ i < (runList p).length ∧ ((runList p).take i).sum = c + 1)

/-- 40_rle_codec R123: encoding and decoding a row are inverse to each other. -/
def Obligations.RowEncodeDecodeInverse : Prop :=
  (∀ (w : Nat) (v : Byte) (runs : List Nat), (v = white ∨ v = black) → ValidRuns w runs →
    rleEncode (expandRuns v runs) = rleRow v runs) ∧
  (∀ (w : Nat) (p : List Byte), 1 ≤ w → ValidRaw w p →
    ∃ v runs, rleEncode p = rleRow v runs ∧ (v = white ∨ v = black) ∧ ValidRuns w runs ∧
      expandRuns v runs = p)

/-- 40_rle_codec R111: run `i`, counting from 1, has the value `v0 XOR ((i - 1) mod 2)`. Here the run's number
from 0 is `i`, so its value is `v XOR (i mod 2)`. -/
def Obligations.RunValuesAlternate : Prop :=
  ∀ (v : Byte) (runs : List Nat) (i r c : Nat), (v = white ∨ v = black) → runs[i]? = some r → c < r →
    (expandRuns v runs)[(runs.take i).sum + c]? = some (v ^^^ BitVec.ofNat 8 (i % 2))

/-- 40_rle_codec R154: flipping bit 0 of the leading value complements every pixel. -/
def Obligations.NegationFlipsLeadingValue : Prop :=
  ∀ (v : Byte) (runs : List Nat), (v = white ∨ v = black) →
    (v ^^^ 1#8 = white ∨ v ^^^ 1#8 = black) ∧
    rleRow (v ^^^ 1#8) runs = (v.setWidth 32 ^^^ 1#32) :: (rleRow v runs).tail ∧
    expandRuns (v ^^^ 1#8) runs = (expandRuns v runs).map (· ^^^ 1#8)

/-- 41_pbm_codec R160 to R163: column `c` is bit `7 - (c mod 8)` of byte `c div 8`, 1 for BLACK, and the padding
bits are 0; unpacking reads the same bit and no other. -/
def Obligations.ScanlineBitOrder : Prop :=
  (∀ p : List Byte, (packRow p).length = (p.length + 7) / 8 ∧
    ∀ c, c < 8 * ((p.length + 7) / 8) →
      ((packRow p)[c / 8]?.getD 0#8).getLsbD (7 - c % 8) = decide (p[c]? = some black)) ∧
  (∀ (bytes : List Byte) (w c : Nat), bytes.length = (w + 7) / 8 → c < w →
    (unpackRow bytes w)[c]? =
      some (if (bytes[c / 8]?.getD 0#8).getLsbD (7 - c % 8) then 0x01#8 else 0x00#8))

/-! ### Laws of two commands -/

/-- 40_rle_codec R150: COMPRESS and then DECOMPRESS complete without error and leave the row. -/
def Obligations.CompressThenDecompressRestores : Prop :=
  ∀ (s : State) (p : List Byte), s.params.wf = true → LegalWidth s → ValidRaw s.width.toNat p →
    HoldsRow s.raw p →
    ∃ t u, exec .compress (issue 0x00000002#32 s) = .next t ∧ t.errcode = 0#4 ∧
      exec .decompress (issue 0x00000003#32 t) = .next u ∧ u.errcode = 0#4 ∧ HoldsRow u.raw p

/-- 40_rle_codec R151: DECOMPRESS and then COMPRESS leave the row of the RLE buffer as it was, and two RAW rows
of one width are equal exactly when COMPRESS writes the same cells for both. -/
def Obligations.DecompressThenCompressRestores : Prop :=
  (∀ (s : State) (v : Byte) (runs : List Nat), s.params.wf = true → LegalWidth s →
    (v = white ∨ v = black) → ValidRuns s.width.toNat runs → HoldsRow s.rle (rleRow v runs) →
    ∃ t u, exec .decompress (issue 0x00000003#32 s) = .next t ∧ t.errcode = 0#4 ∧
      exec .compress (issue 0x00000002#32 t) = .next u ∧ u.errcode = 0#4 ∧ HoldsRow u.rle (rleRow v runs)) ∧
  (∀ (w : Nat) (p q : List Byte), 1 ≤ w → w ≤ 2 ^ 28 - 2 → ValidRaw w p → ValidRaw w q →
    (p = q ↔ rleEncode p = rleEncode q))

/-- 40_rle_codec R152: RUNCOUNT gives `k`; COMPRESS gives `k + 2`; after it SIZEOF gives `k + 2` and RUNSOF `k`. -/
def Obligations.CountsAgree : Prop :=
  ∀ (s : State) (p : List Byte), s.params.wf = true → LegalWidth s → ValidRaw s.width.toNat p →
    HoldsRow s.raw p →
    ∃ a t b c, exec .runcount (issue 0x00000001#32 s) = .next a ∧ a.result = toU32 (runList p).length ∧
      exec .compress (issue 0x00000002#32 s) = .next t ∧ t.result = toU32 ((runList p).length + 2) ∧
      exec .sizeof (issue 0x00000004#32 t) = .next b ∧ b.result = toU32 ((runList p).length + 2) ∧
      exec .runsof (issue 0x00000005#32 t) = .next c ∧ c.result = toU32 (runList p).length

/-- 41_pbm_codec R175: PACK and then UNPACK complete without error and leave the row. -/
def Obligations.PackThenUnpackRestores : Prop :=
  ∀ (s : State) (p : List Byte), LegalWidth s → ValidRaw s.width.toNat p → HoldsRow s.raw p →
    ∃ t u, exec .pack (issue 0x00000006#32 s) = .next t ∧ t.errcode = 0#4 ∧
      exec .unpack (issue 0x00000007#32 t) = .next u ∧ u.errcode = 0#4 ∧ HoldsRow u.raw p

/-- 41_pbm_codec R176: UNPACK and then PACK leave the scanline with its padding bits cleared: every bit of a
column below the width as it was, every other bit of its bytes 0. -/
def Obligations.UnpackThenPackNormalises : Prop :=
  ∀ (s : State) (bytes : List Byte), LegalWidth s → bytes.length = (s.width.toNat + 7) / 8 →
    HoldsRow s.pbm bytes →
    ∃ t u, exec .unpack (issue 0x00000007#32 s) = .next t ∧ exec .pack (issue 0x00000006#32 t) = .next u ∧
      ∀ j, j < bytes.length → ∃ old new, bytes[j]? = some old ∧ Memory.read u.pbm j = some new ∧
        (j + 1 < bytes.length → new = old) ∧
        ∀ b, b < 8 → new.getLsbD (7 - b) = (decide (8 * j + b < s.width.toNat) && old.getLsbD (7 - b))

/-! ### Issue, the bus and the registers -/

/-- 60_exceptions R204: what a write to CMD while BUSY = 0 does, and that one while BUSY = 1 is no issue. -/
def Obligations.IssueEffects : Prop :=
  ∀ (s : State) (v : Word),
    (s.busy = false → ∃ t, memWrite (s.params.base + 0x10) 4 v s = .next t ∧
      t = { s with lcmd := v, busy := true, done := false, errcode := 0#4, errinfo := 0#32,
                   wait := t.wait, draws := t.draws } ∧ irq t = false) ∧
    (s.busy = true → memWrite (s.params.base + 0x10) 4 v s = .next { s with werr := true })

/-- 70_reset R240: what a host write does while BUSY = 1, by its target. -/
def Obligations.WritesWhileBusy : Prop :=
  ∀ (s : State) (addr : Nat) (v : Word), s.busy = true →
    (∀ target, busDecode s.params addr 4 = .hit target →
      (target = .cmd ∨ target = .width ∨ target = .accessCount ∨ (∃ m, target = .raw m) ∨
        (∃ i, target = .rle i) ∨ (∃ m, target = .pbm m) →
        memWrite addr 4 v s = .next { s with werr := true }) ∧
      (target = .ctrl → v.getLsbD 1 = false → memWrite addr 4 v s = .next { s with ie := v.getLsbD 0 }) ∧
      (target = .ctrl → v.getLsbD 1 = true → memWrite addr 4 v s = .next (softReset s)) ∧
      (target = .status → memWrite addr 4 v s =
        .next { s with done := s.done && !v.getLsbD 1, werr := s.werr && !v.getLsbD 3 }) ∧
      (target = .id ∨ target = .caps ∨ target = .stride ∨ target = .result ∨ target = .errinfo →
        memWrite addr 4 v s = .next s)) ∧
    (∀ n, busDecode s.params addr n = .busErr → memWrite addr n v s = .fault .busError)

/-- 70_reset R241: what a host read returns while BUSY = 1: the current value of a register, any value (a free
value with an index of its own) for ACCESS_COUNT and a buffer word, never a fault. -/
def Obligations.ReadsWhileBusy : Prop :=
  ∀ (s : State) (addr : Nat) (t : Fin 16), s.busy = true →
    ∀ target, busDecode s.params addr 4 = .hit target →
      (target = .id → memRead addr 4 t s = .next (setScratch t 0x524C4331#32 s)) ∧
      (target = .caps → memRead addr 4 t s = .next (setScratch t (toU32 s.params.maxWidth) s)) ∧
      (target = .stride → memRead addr 4 t s = .next (setScratch t (toU32 s.params.stride) s)) ∧
      (target = .ctrl → memRead addr 4 t s = .next (setScratch t (if s.ie then 1#32 else 0#32) s)) ∧
      (target = .cmd → memRead addr 4 t s = .next (setScratch t 0#32 s)) ∧
      (target = .status → ∃ x, memRead addr 4 t s = .next (setScratch t x s) ∧ x.getLsbD 0 = true) ∧
      (target = .width → memRead addr 4 t s = .next (setScratch t s.width s)) ∧
      (target = .result → memRead addr 4 t s = .next (setScratch t s.result s)) ∧
      (target = .errinfo → memRead addr 4 t s = .next (setScratch t s.errinfo s)) ∧
      (target = .accessCount ∨ (∃ m, target = .raw m) ∨ (∃ i, target = .rle i) ∨ (∃ m, target = .pbm m) →
        memRead addr 4 t s =
          .next (setScratch t (Config.freeWord s.draws) { s with draws := s.draws + 1 }))

/-- 20_memory R72: a read changes nothing of the block, and, while BUSY = 0, reading again gives the same. -/
def Obligations.ReadsHaveNoSideEffect : Prop :=
  ∀ (s u : State) (addr n : Nat) (t : Fin 16), memRead addr n t s = .next u →
    u = { s with scratch := u.scratch, draws := u.draws } ∧
    (∀ k : Fin 16, k ≠ t → u.scratch[k] = s.scratch[k]) ∧
    (s.busy = false → u.draws = s.draws ∧ memRead addr n t u = .next u)

/-- 20_memory R61, R63: the address map, and that every other offset of the window is a bus error. -/
def Obligations.AddressMap : Prop :=
  ∀ p : Params,
    (∀ off target, (off, target) ∈ [(0x00, BusTarget.id), (0x04, .caps), (0x08, .stride), (0x0C, .ctrl),
        (0x10, .cmd), (0x14, .status), (0x18, .width), (0x1C, .result), (0x20, .errinfo),
        (0x24, .accessCount)] → busDecode p (p.base + off) 4 = .hit target) ∧
    (∀ m, 4 * m < p.maxWidth → busDecode p (p.base + p.stride + 4 * m) 4 = .hit (.raw m)) ∧
    (∀ i, i < p.maxWidth + 2 → busDecode p (p.base + 2 * p.stride + 4 * i) 4 = .hit (.rle i)) ∧
    (∀ m, 4 * m < (p.maxWidth + 7) / 8 → busDecode p (p.base + 3 * p.stride + 4 * m) 4 = .hit (.pbm m)) ∧
    (∀ off n, off < 4 * p.stride → 0x28 ≤ off →
      ¬(p.stride ≤ off ∧ off < p.stride + 4 * ((p.maxWidth + 3) / 4)) →
      ¬(2 * p.stride ≤ off ∧ off < 2 * p.stride + 4 * (p.maxWidth + 2)) →
      ¬(3 * p.stride ≤ off ∧ off < 3 * p.stride + 4 * (((p.maxWidth + 7) / 8 + 3) / 4)) →
      busDecode p (p.base + off) n = .busErr) ∧
    4 * p.rleCap ≤ p.stride ∧ p.rawCap < 4 * p.rleCap

/-- 60_exceptions R200, 20_memory R64, R65: a transaction of a wrong size, a misaligned one and one to an unmapped
offset is a fault of the host program, and no other transaction inside the window is a bus error. -/
def Obligations.BadTransactionsFault : Prop :=
  ∀ (s : State) (off n : Nat) (v : Word) (t : Fin 16), off < 4 * s.params.stride →
    (n ≠ 4 ∨ off % 4 ≠ 0 ∨ targetAt s.params off = none →
      memWrite (s.params.base + off) n v s = .fault .busError ∧
      memRead (s.params.base + off) n t s = .fault .busError) ∧
    (n = 4 → off % 4 = 0 → targetAt s.params off ≠ none →
      (∃ u, memWrite (s.params.base + off) n v s = .next u) ∧
      memRead (s.params.base + off) n t s ≠ .fault .busError)

/-- 10_state R22, R23, R24: ID, CAPS and STRIDE read the configuration, ignore writes, and never change. -/
def Obligations.IdentificationRegisters : Prop :=
  (∀ (s : State) (t : Fin 16) (v : Word),
    memRead (s.params.base + 0x00) 4 t s = .next (setScratch t 0x524C4331#32 s) ∧
    memRead (s.params.base + 0x04) 4 t s = .next (setScratch t (toU32 s.params.maxWidth) s) ∧
    memRead (s.params.base + 0x08) 4 t s = .next (setScratch t (toU32 s.params.stride) s) ∧
    memWrite (s.params.base + 0x00) 4 v s = .next s ∧ memWrite (s.params.base + 0x04) 4 v s = .next s ∧
    memWrite (s.params.base + 0x08) 4 v s = .next s) ∧
  (∀ s t : State, step s = .next t → t.params = s.params)

/-- 10_state R27: the bits of STATUS. -/
def Obligations.StatusWordFields : Prop :=
  ∀ (s : State) (t : Fin 16), ∃ x, memRead (s.params.base + 0x14) 4 t s = .next (setScratch t x s) ∧
    x.getLsbD 0 = s.busy ∧ x.getLsbD 1 = s.done ∧ x.getLsbD 2 = decide (s.errcode ≠ 0#4) ∧
    x.getLsbD 3 = s.werr ∧ x.extractLsb' 8 4 = s.errcode ∧ x.extractLsb' 4 4 = 0#4 ∧
    x.extractLsb' 12 20 = 0#20

/-- 10_state R27, 60_exceptions R210: a write to STATUS clears DONE and WERR where it writes 1, and nothing
else, whether or not a command is in flight. -/
def Obligations.StatusWriteClearsOnes : Prop :=
  ∀ (s : State) (v : Word), ∃ t, memWrite (s.params.base + 0x14) 4 v s = .next t ∧
    t = { s with done := t.done, werr := t.werr } ∧
    (v.getLsbD 1 = true → t.done = false ∧ irq t = false) ∧ (v.getLsbD 1 = false → t.done = s.done) ∧
    (v.getLsbD 3 = true → t.werr = false) ∧ (v.getLsbD 3 = false → t.werr = s.werr)

/-- 10_state R27, the columns "set by" and "cleared by": in one step of the machine BUSY rises only by an issue and
falls only by a completion or a reset; DONE rises only by a completion and falls only by an acknowledge, an issue
or a reset; WERR rises only by a write dropped because BUSY = 1 and falls only by a clear or a reset; ERRCODE and
ERR rise only by a completion and fall only by an issue or a reset. The premise is an invariant
(`StepKeepsStatusConsistent`). -/
def Obligations.StatusBitEvents : Prop :=
  ∀ s t : State, StatusConsistent s → step s = .next t →
    (s.busy = false → t.busy = true → ∃ v, HostWrites s .cmd v) ∧
    (s.busy = true → t.busy = false → EngineTurn s ∨ HostResets s) ∧
    (s.done = false → t.done = true → EngineTurn s) ∧
    (s.done = true → t.done = false →
      (∃ v, HostWrites s .status v ∧ v.getLsbD 1 = true) ∨ (∃ v, HostWrites s .cmd v ∧ s.busy = false) ∨
        HostResets s) ∧
    (s.werr = false → t.werr = true → s.busy = true ∧ ∃ target v, HostWrites s target v ∧
      (target = .cmd ∨ target = .width ∨ target = .accessCount ∨ (∃ m, target = .raw m) ∨
        (∃ i, target = .rle i) ∨ ∃ m, target = .pbm m)) ∧
    (s.werr = true → t.werr = false → (∃ v, HostWrites s .status v ∧ v.getLsbD 3 = true) ∨ HostResets s) ∧
    (t.errcode ≠ s.errcode → t.errcode ≠ 0#4 → EngineTurn s) ∧
    (t.errcode ≠ s.errcode → t.errcode = 0#4 → (∃ v, HostWrites s .cmd v ∧ s.busy = false) ∨ HostResets s)

/-- 10_state R25: reading and writing CTRL, whether or not a command is in flight. -/
def Obligations.CtrlReadsAndWrites : Prop :=
  ∀ (s : State) (t : Fin 16) (v : Word),
    memRead (s.params.base + 0x0C) 4 t s = .next (setScratch t (if s.ie then 1#32 else 0#32) s) ∧
    (v.getLsbD 1 = false → memWrite (s.params.base + 0x0C) 4 v s = .next { s with ie := v.getLsbD 0 }) ∧
    (v.getLsbD 1 = true → memWrite (s.params.base + 0x0C) 4 v s = .next (softReset s) ∧
      (softReset s).ie = false)

/-- 10_state R26, R28 to R32: the other registers while BUSY = 0: WIDTH and ACCESS_COUNT keep what is written,
RESULT and ERRINFO ignore writes, and each reads its value; CMD reads 0. -/
def Obligations.IdleRegisterAccess : Prop :=
  ∀ (s : State) (t : Fin 16) (v : Word), s.busy = false →
    memWrite (s.params.base + 0x18) 4 v s = .next { s with width := v } ∧
    memRead (s.params.base + 0x18) 4 t s = .next (setScratch t s.width s) ∧
    memWrite (s.params.base + 0x24) 4 v s = .next { s with acount := v } ∧
    memRead (s.params.base + 0x24) 4 t s = .next (setScratch t s.acount s) ∧
    memWrite (s.params.base + 0x1C) 4 v s = .next s ∧
    memRead (s.params.base + 0x1C) 4 t s = .next (setScratch t s.result s) ∧
    memWrite (s.params.base + 0x20) 4 v s = .next s ∧
    memRead (s.params.base + 0x20) 4 t s = .next (setScratch t s.errinfo s) ∧
    memRead (s.params.base + 0x10) 4 t s = .next (setScratch t 0#32 s)

/-- 20_memory R66, R67: a RAW word holds four cells in little-endian lanes; a padding lane reads 0 and ignores
writes; no other cell changes. -/
def Obligations.RawWordLanes : Prop :=
  ∀ (s : State) (m : Nat), s.busy = false → 4 * m < s.params.maxWidth →
    (∀ v : Word, ∃ raw', memWrite (s.params.base + s.params.stride + 4 * m) 4 v s
        = .next { s with raw := raw' } ∧
      (∀ b, b < 4 → 4 * m + b < s.params.maxWidth →
        Memory.read raw' (4 * m + b) = some (v.extractLsb' (8 * b) 8)) ∧
      (∀ j, ¬(4 * m ≤ j ∧ j < 4 * m + 4 ∧ j < s.params.maxWidth) → Memory.read raw' j = Memory.read s.raw j)) ∧
    (∀ t : Fin 16, (∀ b, b < 4 → 4 * m + b < s.params.maxWidth → (Memory.read s.raw (4 * m + b)).isSome) →
      ∃ x, memRead (s.params.base + s.params.stride + 4 * m) 4 t s = .next (setScratch t x s) ∧
        (∀ b, b < 4 → 4 * m + b < s.params.maxWidth →
          Memory.read s.raw (4 * m + b) = some (x.extractLsb' (8 * b) 8)) ∧
        (∀ b, b < 4 → s.params.maxWidth ≤ 4 * m + b → x.extractLsb' (8 * b) 8 = 0x00#8))

/-- 20_memory R68: an RLE word is one whole cell. -/
def Obligations.RleWordIsOneCell : Prop :=
  ∀ (s : State) (i : Nat), s.busy = false → i < s.params.maxWidth + 2 →
    (∀ v : Word, ∃ rle', memWrite (s.params.base + 2 * s.params.stride + 4 * i) 4 v s
        = .next { s with rle := rle' } ∧ Memory.read rle' i = some v ∧
      ∀ j, j ≠ i → Memory.read rle' j = Memory.read s.rle j) ∧
    (∀ (t : Fin 16) (x : Word), Memory.read s.rle i = some x →
      memRead (s.params.base + 2 * s.params.stride + 4 * i) 4 t s = .next (setScratch t x s))

/-- 20_memory R69, R67: a PBM word holds four scanline bytes in little-endian lanes, with padding lanes as
those of RAW. -/
def Obligations.PbmWordLanes : Prop :=
  ∀ (s : State) (m : Nat), s.busy = false → 4 * m < (s.params.maxWidth + 7) / 8 →
    (∀ v : Word, ∃ pbm', memWrite (s.params.base + 3 * s.params.stride + 4 * m) 4 v s
        = .next { s with pbm := pbm' } ∧
      (∀ b, b < 4 → 4 * m + b < (s.params.maxWidth + 7) / 8 →
        Memory.read pbm' (4 * m + b) = some (v.extractLsb' (8 * b) 8)) ∧
      (∀ j, ¬(4 * m ≤ j ∧ j < 4 * m + 4 ∧ j < (s.params.maxWidth + 7) / 8) →
        Memory.read pbm' j = Memory.read s.pbm j)) ∧
    (∀ t : Fin 16,
      (∀ b, b < 4 → 4 * m + b < (s.params.maxWidth + 7) / 8 → (Memory.read s.pbm (4 * m + b)).isSome) →
      ∃ x, memRead (s.params.base + 3 * s.params.stride + 4 * m) 4 t s = .next (setScratch t x s) ∧
        (∀ b, b < 4 → 4 * m + b < (s.params.maxWidth + 7) / 8 →
          Memory.read s.pbm (4 * m + b) = some (x.extractLsb' (8 * b) 8)) ∧
        (∀ b, b < 4 → (s.params.maxWidth + 7) / 8 ≤ 4 * m + b → x.extractLsb' (8 * b) 8 = 0x00#8))

/-- 70_reset R232 (a): a host read, while BUSY = 0, of a buffer word with an uninitialised non-padding lane is a
fault. That the fault names the lowest such cell is the model's own (log 7). -/
def Obligations.UninitialisedHostReadFaults : Prop :=
  ∀ (s : State) (t : Fin 16), s.busy = false →
    (∀ m b, b < 4 → 4 * m + b < s.params.maxWidth → Memory.read s.raw (4 * m + b) = none →
      (∀ a, a < b → (Memory.read s.raw (4 * m + a)).isSome) →
      memRead (s.params.base + s.params.stride + 4 * m) 4 t s = .fault (.hostReadUninitialised .raw (4 * m + b))) ∧
    (∀ i, i < s.params.maxWidth + 2 → Memory.read s.rle i = none →
      memRead (s.params.base + 2 * s.params.stride + 4 * i) 4 t s = .fault (.hostReadUninitialised .rle i)) ∧
    (∀ m b, b < 4 → 4 * m + b < (s.params.maxWidth + 7) / 8 → Memory.read s.pbm (4 * m + b) = none →
      (∀ a, a < b → (Memory.read s.pbm (4 * m + a)).isSome) →
      memRead (s.params.base + 3 * s.params.stride + 4 * m) 4 t s
        = .fault (.hostReadUninitialised .pbm (4 * m + b)))

/-- 70_reset R231: the soft reset: registers reset; an aborted command's destination cells initialised (with free
values); every other cell as it was. -/
def Obligations.SoftResetEffects : Prop :=
  ∀ (s : State) (v : Word), v.getLsbD 1 = true →
    ∃ t, memWrite (s.params.base + 0x0C) 4 v s = .next t ∧ RegistersReset t ∧ SameOutside s t ∧
      (s.busy = false → t.raw = s.raw ∧ t.rle = s.rle ∧ t.pbm = s.pbm) ∧
      (s.busy = true → decode s.lcmd = .command .compress →
        AllInitialised (min s.width.toNat s.params.maxWidth + 2) t.rle ∧
        KeepsFrom s.rle t.rle (min s.width.toNat s.params.maxWidth + 2) ∧ t.raw = s.raw ∧ t.pbm = s.pbm) ∧
      (s.busy = true → decode s.lcmd = .command .decompress ∨ decode s.lcmd = .command .unpack →
        AllInitialised (min s.width.toNat s.params.maxWidth) t.raw ∧
        KeepsFrom s.raw t.raw (min s.width.toNat s.params.maxWidth) ∧ t.rle = s.rle ∧ t.pbm = s.pbm) ∧
      (s.busy = true → decode s.lcmd = .command .pack →
        AllInitialised ((min s.width.toNat s.params.maxWidth + 7) / 8) t.pbm ∧
        KeepsFrom s.pbm t.pbm ((min s.width.toNat s.params.maxWidth + 7) / 8) ∧ t.raw = s.raw ∧
        t.rle = s.rle) ∧
      (s.busy = true → decode s.lcmd = .badCommand ∨ decode s.lcmd = .command .runcount ∨
        decode s.lcmd = .command .sizeof ∨ decode s.lcmd = .command .runsof →
        t.raw = s.raw ∧ t.rle = s.rle ∧ t.pbm = s.pbm)

/-- 70_reset R230, 10_state R43: after power-on reset, at the start or later, every register is at its reset
value, no command is in flight, `irq` is low, and no cell is initialised. -/
def Obligations.PowerOnResetEffects : Prop :=
  (∀ p : Params, RegistersReset (State.resetWith p) ∧ NothingInitialised (State.resetWith p) ∧
    irq (State.resetWith p) = false ∧ (State.resetWith p).params = p) ∧
  (∀ s : State, ∃ t, runHostOp .powerOnReset s = .next t ∧ RegistersReset t ∧ NothingInitialised t ∧
    irq t = false)

/-- 60_exceptions R207: `irq` is IE AND DONE; a completion, with or without error, raises it exactly when IE is
set; setting IE raises it when DONE is set; an issue, an acknowledge, clearing IE and a reset drop it. -/
def Obligations.InterruptOutput : Prop :=
  (∀ s : State, irq s = true ↔ s.ie = true ∧ s.done = true) ∧
  (∀ s t : State, engineStep s = .next t → irq t = s.ie) ∧
  (∀ (s t : State) (v : Word), memWrite (s.params.base + 0x0C) 4 v s = .next t →
    irq t = (!v.getLsbD 1 && v.getLsbD 0 && s.done)) ∧
  (∀ (s t : State) (v : Word), s.busy = false → memWrite (s.params.base + 0x10) 4 v s = .next t →
    irq t = false) ∧
  (∀ (s t : State) (v : Word), memWrite (s.params.base + 0x14) 4 v s = .next t →
    irq t = (irq s && !v.getLsbD 1)) ∧
  (∀ s : State, irq (powerOnReset s) = false)

/-- 20_memory R81, 10_state R39: while a command stays in flight, no HOST step changes LCMD, WIDTH, a buffer or
ACCESS_COUNT, nor RESULT, ERRCODE or ERRINFO. -/
def Obligations.OperandsFrozenInFlight : Prop :=
  ∀ s t : State, s.busy = true → hostStep s = .next t → t.busy = true →
    t.lcmd = s.lcmd ∧ t.width = s.width ∧ t.raw = s.raw ∧ t.rle = s.rle ∧ t.pbm = s.pbm ∧
    t.acount = s.acount ∧ t.result = s.result ∧ t.errcode = s.errcode ∧ t.errinfo = s.errinfo

/-- 00_scope R5, R6, 20_memory R61: `S` is the least power of two that is at least `max(256, 4*(MAX_WIDTH+2))`,
the window fits 32-bit offsets, and each buffer fits its stride. -/
def Obligations.StrideIsLeastPowerOfTwo : Prop :=
  ∀ p : Params,
    (∃ k, p.stride = 2 ^ k) ∧ max 256 (4 * (p.maxWidth + 2)) ≤ p.stride ∧
    (∀ k, max 256 (4 * (p.maxWidth + 2)) ≤ 2 ^ k → p.stride ≤ 2 ^ k) ∧
    (p.wf = true → 4 * p.stride ≤ 2 ^ 32) ∧
    p.rawCap < 4 * p.rleCap ∧ 4 * p.rleCap ≤ p.stride ∧ ceil4 p.rawCap ≤ p.stride ∧ ceil4 p.pbmCap ≤ p.stride

/-! ### Invariants -/

/-- The state after reset satisfies the three invariants (10_state R43), for every value of the parameters, and
the parameters of `State.reset` (the model's own, log 1) are within the bounds of 00_scope R5. -/
def Obligations.ResetMeetsInvariants : Prop :=
  (∀ p : Params, MemoryCanonical (State.resetWith p) ∧ StatusConsistent (State.resetWith p) ∧
    CountsBounded (State.resetWith p)) ∧ State.reset.params.wf = true

/-- 10_state R34 to R36: every step keeps the three buffers in canonical form and within their capacities. -/
def Obligations.StepKeepsMemoryCanonical : Prop :=
  ∀ s t : State, MemoryCanonical s → step s = .next t → MemoryCanonical t

/-- 60_exceptions R191, R204, 10_state R30: every step keeps ERRCODE within the table, ERRINFO 0 where there is no
error, and DONE, ERRCODE and ERRINFO clear while a command is in flight. -/
def Obligations.StepKeepsStatusConsistent : Prop :=
  ∀ s t : State, StatusConsistent s → step s = .next t → StatusConsistent t

/-- 60_exceptions R191, R206: every step keeps RESULT and ERRINFO at most RLE_CAP. -/
def Obligations.StepKeepsCountsBounded : Prop :=
  ∀ s t : State, CountsBounded s → step s = .next t → CountsBounded t
end

