-- ==== Sys2Proof/Laws/Config.lean ====
section
/-! SUPPORT. The stride and the regions of the window (00_scope R5; 20_memory R61). -/

namespace Sys2Proof.Machine

/-- The stride is at least what 00_scope R5 asks. -/
theorem stride_ge (p : Params) : max 256 (4 * (p.maxWidth + 2)) ≤ p.stride := by
  have h : max 256 (4 * (p.maxWidth + 2)) - 1 < p.stride := Nat.lt_log2_self
  omega

theorem stride_ge_256 (p : Params) : 256 ≤ p.stride := le_trans (le_max_left _ _) (stride_ge p)

/-- Each buffer region fits its stride (20_memory R61). -/
theorem regions_fit (p : Params) :
    4 * p.rleCap ≤ p.stride ∧ ceil4 p.rawCap ≤ p.stride ∧ ceil4 p.pbmCap ≤ p.stride := by
  have h := le_trans (le_max_right _ _) (stride_ge p)
  simp only [Params.rleCap, Params.rawCap, Params.pbmCap, ceil4]
  omega

end Sys2Proof.Machine
end

