-- ==== Sys2Proof/Laws/Memory.lean ====
section
/-! SUPPORT. The laws of buffer cells: a read after a write, a read after a row is written, and that every write
keeps the canonical form. -/

namespace Sys2Proof.Machine

variable {n : Nat}

/-- A cell read after a write of one cell. -/
theorem Memory.read_write (m : List (Nat × BitVec n)) (i : Nat) (v : BitVec n) (j : Nat) :
    Memory.read (Memory.write m i v) j = if j = i then some v else Memory.read m j := by
  induction m with
  | nil => simp [Memory.write, Memory.read]
  | cons c rest ih =>
    obtain ⟨k, x⟩ := c
    unfold Memory.write
    split
    · simp [Memory.read]
    · split
      · subst_vars
        by_cases hj : j = k <;> simp [Memory.read, hj]
      · by_cases hj : j = k
        · subst hj
          simp [Memory.read]
          omega
        · simp [Memory.read, hj, ih]

@[simp] theorem Memory.read_write_self (m : List (Nat × BitVec n)) (i : Nat) (v : BitVec n) :
    Memory.read (Memory.write m i v) i = some v := by simp [Memory.read_write]

theorem Memory.read_write_other (m : List (Nat × BitVec n)) {i j : Nat} (v : BitVec n) (h : j ≠ i) :
    Memory.read (Memory.write m i v) j = Memory.read m j := by simp [Memory.read_write, h]

/-- A cell read after a row is written: inside the row the row's, elsewhere the old one. -/
theorem Memory.read_writeList (m : List (Nat × BitVec n)) (i : Nat) (vs : List (BitVec n)) (j : Nat) :
    Memory.read (Memory.writeList m i vs) j =
      if i ≤ j ∧ j < i + vs.length then vs[j - i]? else Memory.read m j := by
  induction vs generalizing m i with
  | nil => simp [Memory.writeList]
  | cons v vs ih =>
    rw [Memory.writeList, ih, Memory.read_write]
    simp only [List.length_cons]
    by_cases h1 : j = i
    · subst h1; simp
    · by_cases h2 : i + 1 ≤ j ∧ j < i + 1 + vs.length
      · have h3 : i ≤ j ∧ j < i + (vs.length + 1) := by omega
        have h4 : j - i = (j - (i + 1)) + 1 := by omega
        rw [if_pos h2, if_pos h3, h4, List.getElem?_cons_succ]
      · have h3 : ¬(i ≤ j ∧ j < i + (vs.length + 1)) := by omega
        rw [if_neg h2, if_neg h1, if_neg h3]

/-- After a row is written from cell 0 the buffer holds it. -/
theorem Memory.read_writeList_zero (m : List (Nat × BitVec n)) (vs : List (BitVec n)) (j : Nat) :
    Memory.read (Memory.writeList m 0 vs) j = if j < vs.length then vs[j]? else Memory.read m j := by
  simp [Memory.read_writeList]

/-! ### Canonical form -/

theorem Memory.wfFrom_mono {cap lo lo' : Nat} {m : List (Nat × BitVec n)} (h : lo' ≤ lo)
    (hm : Memory.wfFrom cap lo m = true) : Memory.wfFrom cap lo' m = true := by
  cases m with
  | nil => rfl
  | cons c rest =>
    simp only [Memory.wfFrom, Bool.and_eq_true, decide_eq_true_eq] at hm ⊢
    exact ⟨⟨by omega, hm.1.2⟩, hm.2⟩

theorem Memory.wfFrom_write {cap lo i : Nat} {m : List (Nat × BitVec n)} (v : BitVec n) (hlo : lo ≤ i)
    (hi : i < cap) (hm : Memory.wfFrom cap lo m = true) : Memory.wfFrom cap lo (Memory.write m i v) = true := by
  induction m generalizing lo with
  | nil => simp [Memory.write, Memory.wfFrom, hlo, hi]
  | cons c rest ih =>
    obtain ⟨k, x⟩ := c
    simp only [Memory.wfFrom, Bool.and_eq_true, decide_eq_true_eq] at hm
    unfold Memory.write
    split
    · simp only [Memory.wfFrom, Bool.and_eq_true, decide_eq_true_eq]
      exact ⟨⟨hlo, hi⟩, ⟨by omega, hm.1.2⟩, hm.2⟩
    · split
      · subst_vars
        simp only [Memory.wfFrom, Bool.and_eq_true, decide_eq_true_eq]
        exact ⟨⟨hlo, hi⟩, hm.2⟩
      · simp only [Memory.wfFrom, Bool.and_eq_true, decide_eq_true_eq]
        exact ⟨hm.1, ih (by omega) hm.2⟩

/-- Writing a cell below the capacity keeps the canonical form. -/
theorem Memory.wf_write {cap i : Nat} {m : List (Nat × BitVec n)} (v : BitVec n) (hi : i < cap)
    (hm : Memory.wf cap m = true) : Memory.wf cap (Memory.write m i v) = true :=
  Memory.wfFrom_write v (Nat.zero_le _) hi hm

/-- Writing a row that ends within the capacity keeps the canonical form. -/
theorem Memory.wf_writeList {cap i : Nat} {m : List (Nat × BitVec n)} {vs : List (BitVec n)}
    (hi : i + vs.length ≤ cap) (hm : Memory.wf cap m = true) :
    Memory.wf cap (Memory.writeList m i vs) = true := by
  induction vs generalizing m i with
  | nil => exact hm
  | cons v vs ih =>
    simp only [List.length_cons] at hi
    exact ih (by omega) (Memory.wf_write v (by omega) hm)

theorem Memory.wf_nil {cap : Nat} : Memory.wf cap ([] : List (Nat × BitVec n)) = true := rfl

/-- A cell below the first index of a canonical list is not listed. -/
theorem Memory.read_none_of_wfFrom {cap lo j : Nat} {m : List (Nat × BitVec n)}
    (hm : Memory.wfFrom cap lo m = true) (hj : j < lo) : Memory.read m j = none := by
  induction m generalizing lo with
  | nil => rfl
  | cons c rest ih =>
    simp only [Memory.wfFrom, Bool.and_eq_true, decide_eq_true_eq] at hm
    rw [Memory.read, if_neg (by omega), ih hm.2 (by omega)]

/-- Equal buffers are equal data: two canonical lists that read alike are one list. -/
theorem Memory.eq_of_read {cap lo : Nat} {m m' : List (Nat × BitVec n)} (hm : Memory.wfFrom cap lo m = true)
    (hm' : Memory.wfFrom cap lo m' = true) (h : ∀ j, Memory.read m j = Memory.read m' j) : m = m' := by
  induction m generalizing m' lo with
  | nil =>
    cases m' with
    | nil => rfl
    | cons c' rest' => have := h c'.1; simp [Memory.read] at this
  | cons c rest ih =>
    cases m' with
    | nil => have := h c.1; simp [Memory.read] at this
    | cons c' rest' =>
      simp only [Memory.wfFrom, Bool.and_eq_true, decide_eq_true_eq] at hm hm'
      obtain ⟨k, x⟩ := c
      obtain ⟨k', x'⟩ := c'
      have hk : k = k' := by
        rcases Nat.lt_trichotomy k k' with hlt | heq | hgt
        · have := h k
          rw [Memory.read, if_pos rfl, Memory.read, if_neg (by simpa using by omega),
            Memory.read_none_of_wfFrom hm'.2 (by simpa using by omega)] at this
          cases this
        · exact heq
        · have := h k'
          rw [Memory.read, if_neg (by simpa using by omega),
            Memory.read_none_of_wfFrom hm.2 (by simpa using by omega), Memory.read, if_pos rfl] at this
          cases this
      subst hk
      have hx : x = x' := by simpa [Memory.read] using h k
      subst hx
      rw [ih hm.2 hm'.2 fun j => ?_]
      by_cases hj : j = k
      · rw [hj, Memory.read_none_of_wfFrom hm.2 (Nat.lt_succ_self k),
          Memory.read_none_of_wfFrom hm'.2 (Nat.lt_succ_self k)]
      · simpa [Memory.read, hj] using h j

@[simp] theorem drawn_length (free : Nat → BitVec n) (draws k : Nat) : (drawn free draws k).length = k := by
  simp [drawn]

end Sys2Proof.Machine
end

