-- ==== Sys2Proof/Laws/State.lean ====
section
/-! SUPPORT. One lemma per field per named update of the state, true by rfl, so that no later proof unfolds a
record update. -/

namespace Sys2Proof.Machine

section
variable (n : Nat) (s : State)

@[simp] theorem commitCount_ie : (commitCount n s).ie = s.ie := rfl
@[simp] theorem commitCount_busy : (commitCount n s).busy = s.busy := rfl
@[simp] theorem commitCount_done : (commitCount n s).done = s.done := rfl
@[simp] theorem commitCount_werr : (commitCount n s).werr = s.werr := rfl
@[simp] theorem commitCount_errcode : (commitCount n s).errcode = s.errcode := rfl
@[simp] theorem commitCount_width : (commitCount n s).width = s.width := rfl
@[simp] theorem commitCount_result : (commitCount n s).result = toU32 n := rfl
@[simp] theorem commitCount_errinfo : (commitCount n s).errinfo = s.errinfo := rfl
@[simp] theorem commitCount_acount : (commitCount n s).acount = s.acount := rfl
@[simp] theorem commitCount_lcmd : (commitCount n s).lcmd = s.lcmd := rfl
@[simp] theorem commitCount_raw : (commitCount n s).raw = s.raw := rfl
@[simp] theorem commitCount_rle : (commitCount n s).rle = s.rle := rfl
@[simp] theorem commitCount_pbm : (commitCount n s).pbm = s.pbm := rfl
@[simp] theorem commitCount_params : (commitCount n s).params = s.params := rfl
@[simp] theorem commitCount_wait : (commitCount n s).wait = s.wait := rfl
@[simp] theorem commitCount_draws : (commitCount n s).draws = s.draws := rfl
@[simp] theorem commitCount_program : (commitCount n s).program = s.program := rfl
@[simp] theorem commitCount_hostPc : (commitCount n s).hostPc = s.hostPc := rfl
@[simp] theorem commitCount_scratch : (commitCount n s).scratch = s.scratch := rfl

end

section
variable (row : List Byte) (n : Nat) (s : State)

@[simp] theorem commitRaw_ie : (commitRaw row n s).ie = s.ie := rfl
@[simp] theorem commitRaw_busy : (commitRaw row n s).busy = s.busy := rfl
@[simp] theorem commitRaw_done : (commitRaw row n s).done = s.done := rfl
@[simp] theorem commitRaw_werr : (commitRaw row n s).werr = s.werr := rfl
@[simp] theorem commitRaw_errcode : (commitRaw row n s).errcode = s.errcode := rfl
@[simp] theorem commitRaw_width : (commitRaw row n s).width = s.width := rfl
@[simp] theorem commitRaw_result : (commitRaw row n s).result = toU32 n := rfl
@[simp] theorem commitRaw_errinfo : (commitRaw row n s).errinfo = s.errinfo := rfl
@[simp] theorem commitRaw_acount : (commitRaw row n s).acount = s.acount := rfl
@[simp] theorem commitRaw_lcmd : (commitRaw row n s).lcmd = s.lcmd := rfl
@[simp] theorem commitRaw_raw : (commitRaw row n s).raw = Memory.writeList s.raw 0 row := rfl
@[simp] theorem commitRaw_rle : (commitRaw row n s).rle = s.rle := rfl
@[simp] theorem commitRaw_pbm : (commitRaw row n s).pbm = s.pbm := rfl
@[simp] theorem commitRaw_params : (commitRaw row n s).params = s.params := rfl
@[simp] theorem commitRaw_wait : (commitRaw row n s).wait = s.wait := rfl
@[simp] theorem commitRaw_draws : (commitRaw row n s).draws = s.draws := rfl
@[simp] theorem commitRaw_program : (commitRaw row n s).program = s.program := rfl
@[simp] theorem commitRaw_hostPc : (commitRaw row n s).hostPc = s.hostPc := rfl
@[simp] theorem commitRaw_scratch : (commitRaw row n s).scratch = s.scratch := rfl

end

section
variable (row : List Word) (n : Nat) (s : State)

@[simp] theorem commitRle_ie : (commitRle row n s).ie = s.ie := rfl
@[simp] theorem commitRle_busy : (commitRle row n s).busy = s.busy := rfl
@[simp] theorem commitRle_done : (commitRle row n s).done = s.done := rfl
@[simp] theorem commitRle_werr : (commitRle row n s).werr = s.werr := rfl
@[simp] theorem commitRle_errcode : (commitRle row n s).errcode = s.errcode := rfl
@[simp] theorem commitRle_width : (commitRle row n s).width = s.width := rfl
@[simp] theorem commitRle_result : (commitRle row n s).result = toU32 n := rfl
@[simp] theorem commitRle_errinfo : (commitRle row n s).errinfo = s.errinfo := rfl
@[simp] theorem commitRle_acount : (commitRle row n s).acount = s.acount := rfl
@[simp] theorem commitRle_lcmd : (commitRle row n s).lcmd = s.lcmd := rfl
@[simp] theorem commitRle_raw : (commitRle row n s).raw = s.raw := rfl
@[simp] theorem commitRle_rle : (commitRle row n s).rle = Memory.writeList s.rle 0 row := rfl
@[simp] theorem commitRle_pbm : (commitRle row n s).pbm = s.pbm := rfl
@[simp] theorem commitRle_params : (commitRle row n s).params = s.params := rfl
@[simp] theorem commitRle_wait : (commitRle row n s).wait = s.wait := rfl
@[simp] theorem commitRle_draws : (commitRle row n s).draws = s.draws := rfl
@[simp] theorem commitRle_program : (commitRle row n s).program = s.program := rfl
@[simp] theorem commitRle_hostPc : (commitRle row n s).hostPc = s.hostPc := rfl
@[simp] theorem commitRle_scratch : (commitRle row n s).scratch = s.scratch := rfl

end

section
variable (row : List Byte) (n : Nat) (s : State)

@[simp] theorem commitPbm_ie : (commitPbm row n s).ie = s.ie := rfl
@[simp] theorem commitPbm_busy : (commitPbm row n s).busy = s.busy := rfl
@[simp] theorem commitPbm_done : (commitPbm row n s).done = s.done := rfl
@[simp] theorem commitPbm_werr : (commitPbm row n s).werr = s.werr := rfl
@[simp] theorem commitPbm_errcode : (commitPbm row n s).errcode = s.errcode := rfl
@[simp] theorem commitPbm_width : (commitPbm row n s).width = s.width := rfl
@[simp] theorem commitPbm_result : (commitPbm row n s).result = toU32 n := rfl
@[simp] theorem commitPbm_errinfo : (commitPbm row n s).errinfo = s.errinfo := rfl
@[simp] theorem commitPbm_acount : (commitPbm row n s).acount = s.acount := rfl
@[simp] theorem commitPbm_lcmd : (commitPbm row n s).lcmd = s.lcmd := rfl
@[simp] theorem commitPbm_raw : (commitPbm row n s).raw = s.raw := rfl
@[simp] theorem commitPbm_rle : (commitPbm row n s).rle = s.rle := rfl
@[simp] theorem commitPbm_pbm : (commitPbm row n s).pbm = Memory.writeList s.pbm 0 row := rfl
@[simp] theorem commitPbm_params : (commitPbm row n s).params = s.params := rfl
@[simp] theorem commitPbm_wait : (commitPbm row n s).wait = s.wait := rfl
@[simp] theorem commitPbm_draws : (commitPbm row n s).draws = s.draws := rfl
@[simp] theorem commitPbm_program : (commitPbm row n s).program = s.program := rfl
@[simp] theorem commitPbm_hostPc : (commitPbm row n s).hostPc = s.hostPc := rfl
@[simp] theorem commitPbm_scratch : (commitPbm row n s).scratch = s.scratch := rfl

end

section
variable (v : Word) (s : State)

@[simp] theorem issue_ie : (issue v s).ie = s.ie := rfl
@[simp] theorem issue_busy : (issue v s).busy = true := rfl
@[simp] theorem issue_done : (issue v s).done = false := rfl
@[simp] theorem issue_werr : (issue v s).werr = s.werr := rfl
@[simp] theorem issue_errcode : (issue v s).errcode = 0#4 := rfl
@[simp] theorem issue_width : (issue v s).width = s.width := rfl
@[simp] theorem issue_result : (issue v s).result = s.result := rfl
@[simp] theorem issue_errinfo : (issue v s).errinfo = 0#32 := rfl
@[simp] theorem issue_acount : (issue v s).acount = s.acount := rfl
@[simp] theorem issue_lcmd : (issue v s).lcmd = v := rfl
@[simp] theorem issue_raw : (issue v s).raw = s.raw := rfl
@[simp] theorem issue_rle : (issue v s).rle = s.rle := rfl
@[simp] theorem issue_pbm : (issue v s).pbm = s.pbm := rfl
@[simp] theorem issue_params : (issue v s).params = s.params := rfl
@[simp] theorem issue_wait : (issue v s).wait = Config.freeLatency s.draws := rfl
@[simp] theorem issue_draws : (issue v s).draws = s.draws + 1 := rfl
@[simp] theorem issue_program : (issue v s).program = s.program := rfl
@[simp] theorem issue_hostPc : (issue v s).hostPc = s.hostPc := rfl
@[simp] theorem issue_scratch : (issue v s).scratch = s.scratch := rfl

end

section
variable (n : Nat) (s : State)

@[simp] theorem completeSuccess_ie : (completeSuccess n s).ie = s.ie := rfl
@[simp] theorem completeSuccess_busy : (completeSuccess n s).busy = false := rfl
@[simp] theorem completeSuccess_done : (completeSuccess n s).done = true := rfl
@[simp] theorem completeSuccess_werr : (completeSuccess n s).werr = s.werr := rfl
@[simp] theorem completeSuccess_errcode : (completeSuccess n s).errcode = s.errcode := rfl
@[simp] theorem completeSuccess_width : (completeSuccess n s).width = s.width := rfl
@[simp] theorem completeSuccess_result : (completeSuccess n s).result = s.result := rfl
@[simp] theorem completeSuccess_errinfo : (completeSuccess n s).errinfo = s.errinfo := rfl
@[simp] theorem completeSuccess_acount : (completeSuccess n s).acount = s.acount + toU32 n := rfl
@[simp] theorem completeSuccess_lcmd : (completeSuccess n s).lcmd = s.lcmd := rfl
@[simp] theorem completeSuccess_raw : (completeSuccess n s).raw = s.raw := rfl
@[simp] theorem completeSuccess_rle : (completeSuccess n s).rle = s.rle := rfl
@[simp] theorem completeSuccess_pbm : (completeSuccess n s).pbm = s.pbm := rfl
@[simp] theorem completeSuccess_params : (completeSuccess n s).params = s.params := rfl
@[simp] theorem completeSuccess_wait : (completeSuccess n s).wait = s.wait := rfl
@[simp] theorem completeSuccess_draws : (completeSuccess n s).draws = s.draws := rfl
@[simp] theorem completeSuccess_program : (completeSuccess n s).program = s.program := rfl
@[simp] theorem completeSuccess_hostPc : (completeSuccess n s).hostPc = s.hostPc := rfl
@[simp] theorem completeSuccess_scratch : (completeSuccess n s).scratch = s.scratch := rfl

end

section
variable (e : CmdError) (n : Nat) (s : State)

@[simp] theorem completeError_ie : (completeError e n s).ie = s.ie := rfl
@[simp] theorem completeError_busy : (completeError e n s).busy = false := rfl
@[simp] theorem completeError_done : (completeError e n s).done = true := rfl
@[simp] theorem completeError_werr : (completeError e n s).werr = s.werr := rfl
@[simp] theorem completeError_errcode : (completeError e n s).errcode = e.code := rfl
@[simp] theorem completeError_width : (completeError e n s).width = s.width := rfl
@[simp] theorem completeError_result : (completeError e n s).result = s.result := rfl
@[simp] theorem completeError_errinfo : (completeError e n s).errinfo = toU32 n := rfl
@[simp] theorem completeError_acount : (completeError e n s).acount = s.acount := rfl
@[simp] theorem completeError_lcmd : (completeError e n s).lcmd = s.lcmd := rfl
@[simp] theorem completeError_raw : (completeError e n s).raw = s.raw := rfl
@[simp] theorem completeError_rle : (completeError e n s).rle = s.rle := rfl
@[simp] theorem completeError_pbm : (completeError e n s).pbm = s.pbm := rfl
@[simp] theorem completeError_params : (completeError e n s).params = s.params := rfl
@[simp] theorem completeError_wait : (completeError e n s).wait = s.wait := rfl
@[simp] theorem completeError_draws : (completeError e n s).draws = s.draws := rfl
@[simp] theorem completeError_program : (completeError e n s).program = s.program := rfl
@[simp] theorem completeError_hostPc : (completeError e n s).hostPc = s.hostPc := rfl
@[simp] theorem completeError_scratch : (completeError e n s).scratch = s.scratch := rfl

end

section
variable (v : Word) (s : State)

@[simp] theorem writeStatus_ie : (writeStatus v s).ie = s.ie := rfl
@[simp] theorem writeStatus_busy : (writeStatus v s).busy = s.busy := rfl
@[simp] theorem writeStatus_done : (writeStatus v s).done = (s.done && !v.getLsbD 1) := rfl
@[simp] theorem writeStatus_werr : (writeStatus v s).werr = (s.werr && !v.getLsbD 3) := rfl
@[simp] theorem writeStatus_errcode : (writeStatus v s).errcode = s.errcode := rfl
@[simp] theorem writeStatus_width : (writeStatus v s).width = s.width := rfl
@[simp] theorem writeStatus_result : (writeStatus v s).result = s.result := rfl
@[simp] theorem writeStatus_errinfo : (writeStatus v s).errinfo = s.errinfo := rfl
@[simp] theorem writeStatus_acount : (writeStatus v s).acount = s.acount := rfl
@[simp] theorem writeStatus_lcmd : (writeStatus v s).lcmd = s.lcmd := rfl
@[simp] theorem writeStatus_raw : (writeStatus v s).raw = s.raw := rfl
@[simp] theorem writeStatus_rle : (writeStatus v s).rle = s.rle := rfl
@[simp] theorem writeStatus_pbm : (writeStatus v s).pbm = s.pbm := rfl
@[simp] theorem writeStatus_params : (writeStatus v s).params = s.params := rfl
@[simp] theorem writeStatus_wait : (writeStatus v s).wait = s.wait := rfl
@[simp] theorem writeStatus_draws : (writeStatus v s).draws = s.draws := rfl
@[simp] theorem writeStatus_program : (writeStatus v s).program = s.program := rfl
@[simp] theorem writeStatus_hostPc : (writeStatus v s).hostPc = s.hostPc := rfl
@[simp] theorem writeStatus_scratch : (writeStatus v s).scratch = s.scratch := rfl

end

section
variable (s : State)

@[simp] theorem dropWrite_ie : (dropWrite s).ie = s.ie := rfl
@[simp] theorem dropWrite_busy : (dropWrite s).busy = s.busy := rfl
@[simp] theorem dropWrite_done : (dropWrite s).done = s.done := rfl
@[simp] theorem dropWrite_werr : (dropWrite s).werr = true := rfl
@[simp] theorem dropWrite_errcode : (dropWrite s).errcode = s.errcode := rfl
@[simp] theorem dropWrite_width : (dropWrite s).width = s.width := rfl
@[simp] theorem dropWrite_result : (dropWrite s).result = s.result := rfl
@[simp] theorem dropWrite_errinfo : (dropWrite s).errinfo = s.errinfo := rfl
@[simp] theorem dropWrite_acount : (dropWrite s).acount = s.acount := rfl
@[simp] theorem dropWrite_lcmd : (dropWrite s).lcmd = s.lcmd := rfl
@[simp] theorem dropWrite_raw : (dropWrite s).raw = s.raw := rfl
@[simp] theorem dropWrite_rle : (dropWrite s).rle = s.rle := rfl
@[simp] theorem dropWrite_pbm : (dropWrite s).pbm = s.pbm := rfl
@[simp] theorem dropWrite_params : (dropWrite s).params = s.params := rfl
@[simp] theorem dropWrite_wait : (dropWrite s).wait = s.wait := rfl
@[simp] theorem dropWrite_draws : (dropWrite s).draws = s.draws := rfl
@[simp] theorem dropWrite_program : (dropWrite s).program = s.program := rfl
@[simp] theorem dropWrite_hostPc : (dropWrite s).hostPc = s.hostPc := rfl
@[simp] theorem dropWrite_scratch : (dropWrite s).scratch = s.scratch := rfl

end

section
variable (s : State)

@[simp] theorem clearRegisters_ie : (clearRegisters s).ie = false := rfl
@[simp] theorem clearRegisters_busy : (clearRegisters s).busy = false := rfl
@[simp] theorem clearRegisters_done : (clearRegisters s).done = false := rfl
@[simp] theorem clearRegisters_werr : (clearRegisters s).werr = false := rfl
@[simp] theorem clearRegisters_errcode : (clearRegisters s).errcode = 0#4 := rfl
@[simp] theorem clearRegisters_width : (clearRegisters s).width = 0#32 := rfl
@[simp] theorem clearRegisters_result : (clearRegisters s).result = 0#32 := rfl
@[simp] theorem clearRegisters_errinfo : (clearRegisters s).errinfo = 0#32 := rfl
@[simp] theorem clearRegisters_acount : (clearRegisters s).acount = 0#32 := rfl
@[simp] theorem clearRegisters_lcmd : (clearRegisters s).lcmd = 0#32 := rfl
@[simp] theorem clearRegisters_raw : (clearRegisters s).raw = s.raw := rfl
@[simp] theorem clearRegisters_rle : (clearRegisters s).rle = s.rle := rfl
@[simp] theorem clearRegisters_pbm : (clearRegisters s).pbm = s.pbm := rfl
@[simp] theorem clearRegisters_params : (clearRegisters s).params = s.params := rfl
@[simp] theorem clearRegisters_wait : (clearRegisters s).wait = s.wait := rfl
@[simp] theorem clearRegisters_draws : (clearRegisters s).draws = s.draws := rfl
@[simp] theorem clearRegisters_program : (clearRegisters s).program = s.program := rfl
@[simp] theorem clearRegisters_hostPc : (clearRegisters s).hostPc = s.hostPc := rfl
@[simp] theorem clearRegisters_scratch : (clearRegisters s).scratch = s.scratch := rfl

end

section
variable (t : Fin 16) (v : Word) (s : State)

@[simp] theorem setScratch_ie : (setScratch t v s).ie = s.ie := rfl
@[simp] theorem setScratch_busy : (setScratch t v s).busy = s.busy := rfl
@[simp] theorem setScratch_done : (setScratch t v s).done = s.done := rfl
@[simp] theorem setScratch_werr : (setScratch t v s).werr = s.werr := rfl
@[simp] theorem setScratch_errcode : (setScratch t v s).errcode = s.errcode := rfl
@[simp] theorem setScratch_width : (setScratch t v s).width = s.width := rfl
@[simp] theorem setScratch_result : (setScratch t v s).result = s.result := rfl
@[simp] theorem setScratch_errinfo : (setScratch t v s).errinfo = s.errinfo := rfl
@[simp] theorem setScratch_acount : (setScratch t v s).acount = s.acount := rfl
@[simp] theorem setScratch_lcmd : (setScratch t v s).lcmd = s.lcmd := rfl
@[simp] theorem setScratch_raw : (setScratch t v s).raw = s.raw := rfl
@[simp] theorem setScratch_rle : (setScratch t v s).rle = s.rle := rfl
@[simp] theorem setScratch_pbm : (setScratch t v s).pbm = s.pbm := rfl
@[simp] theorem setScratch_params : (setScratch t v s).params = s.params := rfl
@[simp] theorem setScratch_wait : (setScratch t v s).wait = s.wait := rfl
@[simp] theorem setScratch_draws : (setScratch t v s).draws = s.draws := rfl
@[simp] theorem setScratch_program : (setScratch t v s).program = s.program := rfl
@[simp] theorem setScratch_hostPc : (setScratch t v s).hostPc = s.hostPc := rfl
@[simp] theorem setScratch_scratch : (setScratch t v s).scratch = s.scratch.set t v := rfl

end

section
variable (s : State)

@[simp] theorem hostAdvance_ie : (hostAdvance s).ie = s.ie := rfl
@[simp] theorem hostAdvance_busy : (hostAdvance s).busy = s.busy := rfl
@[simp] theorem hostAdvance_done : (hostAdvance s).done = s.done := rfl
@[simp] theorem hostAdvance_werr : (hostAdvance s).werr = s.werr := rfl
@[simp] theorem hostAdvance_errcode : (hostAdvance s).errcode = s.errcode := rfl
@[simp] theorem hostAdvance_width : (hostAdvance s).width = s.width := rfl
@[simp] theorem hostAdvance_result : (hostAdvance s).result = s.result := rfl
@[simp] theorem hostAdvance_errinfo : (hostAdvance s).errinfo = s.errinfo := rfl
@[simp] theorem hostAdvance_acount : (hostAdvance s).acount = s.acount := rfl
@[simp] theorem hostAdvance_lcmd : (hostAdvance s).lcmd = s.lcmd := rfl
@[simp] theorem hostAdvance_raw : (hostAdvance s).raw = s.raw := rfl
@[simp] theorem hostAdvance_rle : (hostAdvance s).rle = s.rle := rfl
@[simp] theorem hostAdvance_pbm : (hostAdvance s).pbm = s.pbm := rfl
@[simp] theorem hostAdvance_params : (hostAdvance s).params = s.params := rfl
@[simp] theorem hostAdvance_wait : (hostAdvance s).wait = s.wait - 1 := rfl
@[simp] theorem hostAdvance_draws : (hostAdvance s).draws = s.draws := rfl
@[simp] theorem hostAdvance_program : (hostAdvance s).program = s.program := rfl
@[simp] theorem hostAdvance_hostPc : (hostAdvance s).hostPc = s.hostPc + 1 := rfl
@[simp] theorem hostAdvance_scratch : (hostAdvance s).scratch = s.scratch := rfl

end

section
variable (n : Nat) (s : State)

@[simp] theorem hostGoto_ie : (hostGoto n s).ie = s.ie := rfl
@[simp] theorem hostGoto_busy : (hostGoto n s).busy = s.busy := rfl
@[simp] theorem hostGoto_done : (hostGoto n s).done = s.done := rfl
@[simp] theorem hostGoto_werr : (hostGoto n s).werr = s.werr := rfl
@[simp] theorem hostGoto_errcode : (hostGoto n s).errcode = s.errcode := rfl
@[simp] theorem hostGoto_width : (hostGoto n s).width = s.width := rfl
@[simp] theorem hostGoto_result : (hostGoto n s).result = s.result := rfl
@[simp] theorem hostGoto_errinfo : (hostGoto n s).errinfo = s.errinfo := rfl
@[simp] theorem hostGoto_acount : (hostGoto n s).acount = s.acount := rfl
@[simp] theorem hostGoto_lcmd : (hostGoto n s).lcmd = s.lcmd := rfl
@[simp] theorem hostGoto_raw : (hostGoto n s).raw = s.raw := rfl
@[simp] theorem hostGoto_rle : (hostGoto n s).rle = s.rle := rfl
@[simp] theorem hostGoto_pbm : (hostGoto n s).pbm = s.pbm := rfl
@[simp] theorem hostGoto_params : (hostGoto n s).params = s.params := rfl
@[simp] theorem hostGoto_wait : (hostGoto n s).wait = s.wait := rfl
@[simp] theorem hostGoto_draws : (hostGoto n s).draws = s.draws := rfl
@[simp] theorem hostGoto_program : (hostGoto n s).program = s.program := rfl
@[simp] theorem hostGoto_hostPc : (hostGoto n s).hostPc = n := rfl
@[simp] theorem hostGoto_scratch : (hostGoto n s).scratch = s.scratch := rfl

end

/-! A soft reset and a power-on reset are a `clearRegisters` of another state. -/

section
variable (s : State)

theorem softReset_eq : softReset s = clearRegisters (if s.busy then abortCells s else s) := rfl

@[simp] theorem softReset_ie : (softReset s).ie = false := rfl
@[simp] theorem softReset_busy : (softReset s).busy = false := rfl
@[simp] theorem softReset_done : (softReset s).done = false := rfl
@[simp] theorem softReset_werr : (softReset s).werr = false := rfl
@[simp] theorem softReset_errcode : (softReset s).errcode = 0#4 := rfl
@[simp] theorem softReset_width : (softReset s).width = 0#32 := rfl
@[simp] theorem softReset_result : (softReset s).result = 0#32 := rfl
@[simp] theorem softReset_errinfo : (softReset s).errinfo = 0#32 := rfl
@[simp] theorem softReset_acount : (softReset s).acount = 0#32 := rfl
@[simp] theorem softReset_lcmd : (softReset s).lcmd = 0#32 := rfl
@[simp] theorem powerOnReset_ie : (powerOnReset s).ie = false := rfl
@[simp] theorem powerOnReset_busy : (powerOnReset s).busy = false := rfl
@[simp] theorem powerOnReset_done : (powerOnReset s).done = false := rfl
@[simp] theorem powerOnReset_werr : (powerOnReset s).werr = false := rfl
@[simp] theorem powerOnReset_errcode : (powerOnReset s).errcode = 0#4 := rfl
@[simp] theorem powerOnReset_width : (powerOnReset s).width = 0#32 := rfl
@[simp] theorem powerOnReset_result : (powerOnReset s).result = 0#32 := rfl
@[simp] theorem powerOnReset_errinfo : (powerOnReset s).errinfo = 0#32 := rfl
@[simp] theorem powerOnReset_acount : (powerOnReset s).acount = 0#32 := rfl
@[simp] theorem powerOnReset_lcmd : (powerOnReset s).lcmd = 0#32 := rfl
@[simp] theorem powerOnReset_raw : (powerOnReset s).raw = [] := rfl
@[simp] theorem powerOnReset_rle : (powerOnReset s).rle = [] := rfl
@[simp] theorem powerOnReset_pbm : (powerOnReset s).pbm = [] := rfl
@[simp] theorem powerOnReset_params : (powerOnReset s).params = s.params := rfl
@[simp] theorem powerOnReset_wait : (powerOnReset s).wait = s.wait := rfl
@[simp] theorem powerOnReset_draws : (powerOnReset s).draws = s.draws := rfl
@[simp] theorem powerOnReset_program : (powerOnReset s).program = s.program := rfl
@[simp] theorem powerOnReset_hostPc : (powerOnReset s).hostPc = s.hostPc := rfl
@[simp] theorem powerOnReset_scratch : (powerOnReset s).scratch = s.scratch := rfl

/-- What the draws of an aborted command leave as they were. -/
theorem abortCells_frame :
    abortCells s = { s with raw := (abortCells s).raw, rle := (abortCells s).rle, pbm := (abortCells s).pbm,
                            draws := (abortCells s).draws } := by
  unfold abortCells
  split <;> rfl

@[simp] theorem softReset_params : (softReset s).params = s.params := by
  rw [softReset_eq, clearRegisters_params]
  split
  · rw [abortCells_frame]
  · rfl
@[simp] theorem softReset_program : (softReset s).program = s.program := by
  rw [softReset_eq, clearRegisters_program]
  split
  · rw [abortCells_frame]
  · rfl
@[simp] theorem softReset_hostPc : (softReset s).hostPc = s.hostPc := by
  rw [softReset_eq, clearRegisters_hostPc]
  split
  · rw [abortCells_frame]
  · rfl
@[simp] theorem softReset_scratch : (softReset s).scratch = s.scratch := by
  rw [softReset_eq, clearRegisters_scratch]
  split
  · rw [abortCells_frame]
  · rfl
@[simp] theorem softReset_wait : (softReset s).wait = s.wait := by
  rw [softReset_eq, clearRegisters_wait]
  split
  · rw [abortCells_frame]
  · rfl

end

end Sys2Proof.Machine
end

