-- ==== Sys2Proof/Laws/Bus.lean ====
section
/-! SUPPORT. What a bus transaction can do: where an address goes, what lanes store, and, once for reads and once
for writes, the next state of a transaction. -/

namespace Sys2Proof.Machine

/-! ### The address map (20_memory R60 to R65) -/

/-- A transaction that reaches a target is an aligned word inside the window. -/
theorem busDecode_hit {p : Params} {addr n : Nat} {t : BusTarget} (h : busDecode p addr n = .hit t) :
    n = 4 ∧ p.base ≤ addr ∧ addr < p.base + 4 * p.stride ∧ (addr - p.base) % 4 = 0 ∧
      targetAt p (addr - p.base) = some t := by
  unfold busDecode at h
  split at h
  · cases h
  · split at h
    · cases h
    · split at h
      · cases h
      · split at h
        · cases h
        · next ht => cases h; exact ⟨by omega, by omega, by omega, by omega, ht⟩

/-- An aligned word inside the window reaches what its offset is. -/
theorem busDecode_aligned {p : Params} {off : Nat} (hin : off < 4 * p.stride) (ha : off % 4 = 0) :
    busDecode p (p.base + off) 4 = match targetAt p off with
      | none => .busErr
      | some t => .hit t := by
  unfold busDecode
  rw [if_neg (by omega), if_neg (by omega), Nat.add_sub_cancel_left]
  exact if_neg (by omega)

theorem registerAt_not_buffer {off : Nat} {t : BusTarget} (h : registerAt off = some t) :
    (∀ m, t ≠ .raw m) ∧ (∀ i, t ≠ .rle i) ∧ ∀ m, t ≠ .pbm m := by
  unfold registerAt at h
  split at h <;> cases h <;> simp

/-- An RLE word is a cell of the buffer. -/
theorem targetAt_rle {p : Params} {off i : Nat} (h : targetAt p off = some (.rle i)) : i < p.rleCap := by
  unfold targetAt at h
  split at h
  · exact absurd rfl ((registerAt_not_buffer h).2.1 i)
  · split at h
    · cases h
    · split at h
      · cases h; omega
      · split at h <;> cases h

/-- The control registers, by offset. -/
theorem busDecode_register {p : Params} {off : Nat} {t : BusTarget} (h : registerAt off = some t) :
    busDecode p (p.base + off) 4 = .hit t := by
  have hs := stride_ge_256 p
  have hoff : off < 0x28 ∧ off % 4 = 0 := by
    unfold registerAt at h
    split at h <;> first | (cases h; done) | (constructor <;> omega)
  rw [busDecode_aligned (by omega) hoff.2]
  simp only [targetAt, if_pos (show off < 0x100 by omega), h]

theorem memWrite_register {s : State} {off : Nat} {t : BusTarget} (v : Word) (h : registerAt off = some t) :
    memWrite (s.params.base + off) 4 v s = .next (writeTarget t v s) := by
  simp only [memWrite, busDecode_register h]

/-! ### Lanes (20_memory R66, R67, R69) -/

theorem storeLane_wf {cap index : Nat} {cells : List Host.Cell} (v : Byte) (h : Memory.wf cap cells = true) :
    Memory.wf cap (storeLane cap cells index v) = true := by
  unfold storeLane
  split
  · exact h
  · exact Memory.wf_write v (by omega) h

/-- Storing the lanes of a word keeps the canonical form: a padding lane is not stored. -/
theorem storeLanes_wf {cap m : Nat} {cells : List Host.Cell} (v : Word) (h : Memory.wf cap cells = true) :
    Memory.wf cap (storeLanes cap cells m v) = true :=
  storeLane_wf _ (storeLane_wf _ (storeLane_wf _ (storeLane_wf _ h)))

theorem read_storeLane (cap index : Nat) (cells : List Host.Cell) (v : Byte) (j : Nat) :
    Memory.read (storeLane cap cells index v) j =
      if j = index ∧ index < cap then some v else Memory.read cells j := by
  unfold storeLane
  split
  · rw [if_neg (by omega)]
  · rw [Memory.read_write]
    by_cases h : j = index
    · rw [if_pos h, if_pos ⟨h, by omega⟩]
    · rw [if_neg h, if_neg (by tauto)]

/-! ### Reads -/

/-- A read that answers changes the HOST's scratch value and, where the value is free, the count of draws. -/
theorem memRead_next {s u : State} {addr n : Nat} {t : Fin 16} (h : memRead addr n t s = .next u) :
    ∃ v d, u = setScratch t v { s with draws := d } ∧ (s.busy = false → d = s.draws) := by
  unfold memRead at h
  split at h
  · cases h
  · cases h
  · next target _ =>
    split at h
    · next v _ => cases h; exact ⟨v, s.draws, rfl, fun _ => rfl⟩
    · next hr =>
      cases h
      refine ⟨_, _, rfl, fun hb => ?_⟩
      exfalso
      unfold readTarget at hr
      split at hr <;> try cases hr
      all_goals simp only [hb, Bool.false_eq_true, if_false] at hr
      · cases hr
      all_goals unfold BusRead.ofExcept at hr; split at hr <;> cases hr
    · cases h

/-! ### Writes -/

theorem writeIdle_busy {s u : State} (h : s.busy = true) : writeIdle s u = dropWrite s := by
  rw [writeIdle, if_pos h]

theorem writeIdle_idle {s u : State} (h : s.busy = false) : writeIdle s u = u := by
  rw [writeIdle, if_neg (by simp [h])]

theorem memWrite_next {s u : State} {addr n : Nat} {v : Word} (h : memWrite addr n v s = .next u) :
    ∃ t, busDecode s.params addr n = .hit t ∧ u = writeTarget t v s := by
  unfold memWrite at h
  split at h
  · cases h
  · cases h
  · next target hd => cases h; exact ⟨target, hd, rfl⟩

/-- What the draws of an aborted command store: a row of free values from cell 0, within the capacity. -/
theorem abortCells_cases (s : State) :
    abortCells s = s ∨
    (∃ n, n ≤ s.params.rawCap ∧ abortCells s =
      { s with raw := Memory.writeList s.raw 0 (drawn Config.freeByte s.draws n), draws := s.draws + n }) ∨
    (∃ n, n ≤ s.params.rleCap ∧ abortCells s =
      { s with rle := Memory.writeList s.rle 0 (drawn Config.freeElement s.draws n), draws := s.draws + n }) ∨
    (∃ n, n ≤ s.params.pbmCap ∧ abortCells s =
      { s with pbm := Memory.writeList s.pbm 0 (drawn Config.freeByte s.draws n), draws := s.draws + n }) := by
  unfold abortCells destCells
  cases decode s.lcmd with
  | badCommand => exact .inl rfl
  | command i =>
    cases i with
    | runcount => exact .inl rfl
    | sizeof => exact .inl rfl
    | runsof => exact .inl rfl
    | compress => exact .inr (.inr (.inl ⟨_, by simp only [Params.rleCap]; omega, rfl⟩))
    | decompress => exact .inr (.inl ⟨_, by simp only [Params.rawCap]; omega, rfl⟩)
    | unpack => exact .inr (.inl ⟨_, by simp only [Params.rawCap]; omega, rfl⟩)
    | pack => exact .inr (.inr (.inr ⟨_, by simp only [Params.pbmCap]; omega, rfl⟩))

theorem abortCells_canonical {s : State} (h : MemoryCanonical s) : MemoryCanonical (abortCells s) := by
  obtain ⟨h1, h2, h3⟩ := h
  rcases abortCells_cases s with he | ⟨n, hn, he⟩ | ⟨n, hn, he⟩ | ⟨n, hn, he⟩ <;> rw [he]
  · exact ⟨h1, h2, h3⟩
  · exact ⟨Memory.wf_writeList (by simpa using hn) h1, h2, h3⟩
  · exact ⟨h1, Memory.wf_writeList (by simpa using hn) h2, h3⟩
  · exact ⟨h1, h2, Memory.wf_writeList (by simpa using hn) h3⟩

/-- A soft reset keeps the buffers in canonical form. -/
theorem softReset_canonical {s : State} (h : MemoryCanonical s) : MemoryCanonical (softReset s) := by
  rw [softReset_eq]
  split
  · exact abortCells_canonical h
  · exact h

/-- A write that reaches a target keeps the buffers in canonical form. -/
theorem writeTarget_canonical {s : State} {t : BusTarget} {off : Nat} (v : Word)
    (ht : targetAt s.params off = some t) (h : MemoryCanonical s) : MemoryCanonical (writeTarget t v s) := by
  obtain ⟨h1, h2, h3⟩ := h
  cases t with
  | id | caps | stride | result | errinfo => exact ⟨h1, h2, h3⟩
  | ctrl =>
    simp only [writeTarget, writeCtrl]
    split
    · exact softReset_canonical ⟨h1, h2, h3⟩
    · exact ⟨h1, h2, h3⟩
  | status => exact ⟨h1, h2, h3⟩
  | cmd | width | accessCount =>
    simp only [writeTarget, writeIdle]
    split <;> exact ⟨h1, h2, h3⟩
  | raw m =>
    simp only [writeTarget, writeIdle]
    split
    · exact ⟨h1, h2, h3⟩
    · exact ⟨storeLanes_wf v h1, h2, h3⟩
  | rle i =>
    simp only [writeTarget, writeIdle]
    split
    · exact ⟨h1, h2, h3⟩
    · exact ⟨h1, Memory.wf_write v (targetAt_rle ht) h2, h3⟩
  | pbm m =>
    simp only [writeTarget, writeIdle]
    split
    · exact ⟨h1, h2, h3⟩
    · exact ⟨h1, h2, storeLanes_wf v h3⟩

/-- Two states that differ at most in the fields a host write may change without an issue or a reset. -/
def SameButWritten (s u : State) : Prop :=
  u = { s with ie := u.ie, done := u.done, werr := u.werr, width := u.width, acount := u.acount, raw := u.raw,
               rle := u.rle, pbm := u.pbm }

/-- The operands of a command in flight (20_memory R81). -/
def SameOperandCells (s u : State) : Prop :=
  u.width = s.width ∧ u.acount = s.acount ∧ u.raw = s.raw ∧ u.rle = s.rle ∧ u.pbm = s.pbm

/-- What a write that reaches a target can leave: a state with some writable field written, that of an issue, or
that of a soft reset. -/
theorem writeTarget_cases (t : BusTarget) (v : Word) (s : State) :
    (SameButWritten s (writeTarget t v s) ∧ (s.done = false → (writeTarget t v s).done = false) ∧
      (s.busy = true → SameOperandCells s (writeTarget t v s))) ∨
    (t = .cmd ∧ s.busy = false ∧ writeTarget t v s = issue v s) ∨
    (t = .ctrl ∧ v.getLsbD 1 = true ∧ writeTarget t v s = softReset s) := by
  have same : ∀ u : State, SameButWritten s u → (s.done = false → u.done = false) →
      (s.busy = true → SameOperandCells s u) → writeTarget t v s = u →
      (SameButWritten s (writeTarget t v s) ∧ (s.done = false → (writeTarget t v s).done = false) ∧
        (s.busy = true → SameOperandCells s (writeTarget t v s))) := by
    rintro u h1 h2 h3 rfl
    exact ⟨h1, h2, h3⟩
  have dropped : s.busy = true → SameOperandCells s (dropWrite s) := fun _ => ⟨rfl, rfl, rfl, rfl, rfl⟩
  cases t with
  | id | caps | stride | result | errinfo => exact .inl (same s rfl id (fun _ => ⟨rfl, rfl, rfl, rfl, rfl⟩) rfl)
  | ctrl =>
    by_cases hv : v.getLsbD 1 = true
    · exact .inr (.inr ⟨rfl, hv, if_pos hv⟩)
    · exact .inl (same { s with ie := v.getLsbD 0 } rfl id (fun _ => ⟨rfl, rfl, rfl, rfl, rfl⟩) (if_neg hv))
  | status =>
    exact .inl (same (writeStatus v s) rfl (fun h => by simp [h]) (fun _ => ⟨rfl, rfl, rfl, rfl, rfl⟩) rfl)
  | cmd =>
    by_cases hb : s.busy = true
    · exact .inl (same (dropWrite s) rfl id dropped (writeIdle_busy hb))
    · exact .inr (.inl ⟨rfl, by simpa using hb, if_neg hb⟩)
  | width | accessCount | raw _ | rle _ | pbm _ =>
    left
    by_cases hb : s.busy = true
    · exact same (dropWrite s) rfl id dropped (writeIdle_busy hb)
    · exact same (if s.busy then dropWrite s else _) (by rw [if_neg hb]; rfl) (by rw [if_neg hb]; exact id)
        (fun h => absurd h hb) rfl

end Sys2Proof.Machine
end

