-- ==== Sys2Proof/Laws/Operands.lean ====
section
/-! SUPPORT. What each operand check can answer: for every check, when it gives its value, its error or its fault,
and what each answer says of the cells. Later proofs cite these and do not unfold a check. -/

namespace Sys2Proof.Machine

/-! ### One line of pseudocode after another -/

section
variable {α β : Type}

@[simp] theorem CmdResult.bind_ok (a : α) (f : α → CmdResult β) : (CmdResult.ok a).bind f = f a := rfl

@[simp] theorem CmdResult.bind_error (e : CmdError) (n : Nat) (f : α → CmdResult β) :
    (CmdResult.error e n).bind f = .error e n := rfl

@[simp] theorem CmdResult.bind_fault (flt : Fault) (f : α → CmdResult β) :
    (CmdResult.fault flt).bind f = .fault flt := rfl

theorem CmdResult.bind_eq_ok {r : CmdResult α} {f : α → CmdResult β} {b : β} :
    r.bind f = .ok b ↔ ∃ a, r = .ok a ∧ f a = .ok b := by
  cases r <;> simp [CmdResult.bind]

theorem CmdResult.bind_eq_error {r : CmdResult α} {f : α → CmdResult β} {e : CmdError} {n : Nat} :
    r.bind f = .error e n ↔ r = .error e n ∨ ∃ a, r = .ok a ∧ f a = .error e n := by
  cases r <;> simp [CmdResult.bind]

theorem CmdResult.bind_eq_fault {r : CmdResult α} {f : α → CmdResult β} {flt : Fault} :
    r.bind f = .fault flt ↔ r = .fault flt ∨ ∃ a, r = .ok a ∧ f a = .fault flt := by
  cases r <;> simp [CmdResult.bind]

end

/-! ### check_width (R117) -/

theorem checkWidth_zero {s : State} (h : s.width.toNat = 0) : checkWidth s = .error .widthZero 0 := by
  simp only [checkWidth, h, if_true]

theorem checkWidth_range {s : State} (h : s.params.maxWidth < s.width.toNat) :
    checkWidth s = .error .widthRange 0 := by
  unfold checkWidth
  rw [if_neg (by omega), if_pos h]

theorem checkWidth_legal {s : State} (h : LegalWidth s) : checkWidth s = .ok s.width.toNat := by
  unfold checkWidth
  rw [if_neg (by omega), if_neg (by omega)]

/-- The three answers of `check_width`. -/
theorem checkWidth_cases (s : State) :
    (s.width.toNat = 0 ∧ checkWidth s = .error .widthZero 0) ∨
    (s.params.maxWidth < s.width.toNat ∧ checkWidth s = .error .widthRange 0) ∨
    (LegalWidth s ∧ checkWidth s = .ok s.width.toNat) := by
  by_cases h0 : s.width.toNat = 0
  · exact .inl ⟨h0, checkWidth_zero h0⟩
  · by_cases h1 : s.params.maxWidth < s.width.toNat
    · exact .inr (.inl ⟨h1, checkWidth_range h1⟩)
    · have h : LegalWidth s := ⟨by omega, by omega⟩
      exact .inr (.inr ⟨h, checkWidth_legal h⟩)

/-! ### check_raw (R118) -/

/-- A row of legal pixels passes, and is what the check gives. -/
theorem checkRaw_of_row {raw : List Host.Cell} {c : Nat} {row : List Byte}
    (hrow : ∀ k, k < row.length → Memory.read raw (c + k) = row[k]?)
    (hv : ∀ v ∈ row, v = white ∨ v = black) : checkRaw raw c row.length = .ok row := by
  induction row generalizing c with
  | nil => rfl
  | cons v rest ih =>
    have h0 : Memory.read raw c = some v := by simpa using hrow 0 (by simp)
    have hvv : ¬(v ≠ white ∧ v ≠ black) := by
      have := hv v (by simp)
      tauto
    have hrest := ih (c := c + 1)
      (fun k hk => by
        have := hrow (k + 1) (by simpa using hk)
        rw [show c + 1 + k = c + (k + 1) by omega, this, List.getElem?_cons_succ])
      (fun x hx => hv x (by simp [hx]))
    simp only [List.length_cons, checkRaw, h0, if_neg hvv, hrest, CmdResult.bind_ok]

/-- Below the lowest offending column every column is legal, and the check reports that column. -/
theorem checkRaw_of_bad {raw : List Host.Cell} {c n k : Nat} {x : Byte} (hk : k < n)
    (hbelow : ∀ d, d < k → Memory.read raw (c + d) = some white ∨ Memory.read raw (c + d) = some black)
    (hx : Memory.read raw (c + k) = some x) (hw : x ≠ white) (hb : x ≠ black) :
    checkRaw raw c n = .error .rawValue (c + k) := by
  induction k generalizing c n with
  | zero =>
    cases n with
    | zero => omega
    | succ n => simp only [checkRaw, Nat.add_zero] at hx ⊢; simp only [hx, if_pos (And.intro hw hb)]
  | succ k ih =>
    cases n with
    | zero => omega
    | succ n =>
      have hrest := ih (c := c + 1) (n := n) (by omega)
        (fun d hd => by rw [show c + 1 + d = c + (d + 1) by omega]; exact hbelow (d + 1) (by omega))
        (by rw [show c + 1 + k = c + (k + 1) by omega]; exact hx)
      rw [show c + (k + 1) = c + 1 + k by omega]
      rcases hbelow 0 (by omega) with h0 | h0 <;>
      · simp only [Nat.add_zero] at h0
        simp only [checkRaw, h0, hrest, white, black, CmdResult.bind_error]
        simp

/-- A cell that is uninitialised stops the check, when every column below it is legal. -/
theorem checkRaw_of_uninitialised {raw : List Host.Cell} {c n k : Nat} (hk : k < n)
    (hbelow : ∀ d, d < k → Memory.read raw (c + d) = some white ∨ Memory.read raw (c + d) = some black)
    (hx : Memory.read raw (c + k) = none) :
    checkRaw raw c n = .fault (.commandReadUninitialised .raw (c + k)) := by
  induction k generalizing c n with
  | zero =>
    cases n with
    | zero => omega
    | succ n => simp only [checkRaw, Nat.add_zero] at hx ⊢; simp only [hx]
  | succ k ih =>
    cases n with
    | zero => omega
    | succ n =>
      have hrest := ih (c := c + 1) (n := n) (by omega)
        (fun d hd => by rw [show c + 1 + d = c + (d + 1) by omega]; exact hbelow (d + 1) (by omega))
        (by rw [show c + 1 + k = c + (k + 1) by omega]; exact hx)
      rw [show c + (k + 1) = c + 1 + k by omega]
      rcases hbelow 0 (by omega) with h0 | h0 <;>
      · simp only [Nat.add_zero] at h0
        simp only [checkRaw, h0, hrest, white, black, CmdResult.bind_fault]
        simp

/-- The row a passed check gives is the row of the buffer, and is legal. -/
theorem checkRaw_ok {raw : List Host.Cell} {c n : Nat} {row : List Byte} (h : checkRaw raw c n = .ok row) :
    row.length = n ∧ (∀ k, k < row.length → Memory.read raw (c + k) = row[k]?) ∧
      ∀ v ∈ row, v = white ∨ v = black := by
  induction n generalizing c row with
  | zero => simp only [checkRaw, CmdResult.ok.injEq] at h; subst h; simp
  | succ n ih =>
    unfold checkRaw at h
    split at h
    · cases h
    · next v hv =>
      split at h
      · cases h
      · next hvv =>
        obtain ⟨rest, hr, hrow⟩ := CmdResult.bind_eq_ok.1 h
        cases hrow
        obtain ⟨hl, hreads, hvals⟩ := ih hr
        refine ⟨by simp [hl], ?_, ?_⟩
        · intro k hk
          cases k with
          | zero => simpa using hv
          | succ k =>
            rw [show c + (k + 1) = c + 1 + k by omega, hreads k (by simpa using hk), List.getElem?_cons_succ]
        · intro x hx
          rcases List.mem_cons.1 hx with rfl | hx
          · tauto
          · exact hvals x hx

/-- The only error of the pixel check, and where it is. -/
theorem checkRaw_error {raw : List Host.Cell} {c n info : Nat} {e : CmdError}
    (h : checkRaw raw c n = .error e info) : e = .rawValue ∧ c ≤ info ∧ info < c + n := by
  induction n generalizing c with
  | zero => cases h
  | succ n ih =>
    unfold checkRaw at h
    split at h
    · cases h
    · split at h
      · cases h; exact ⟨rfl, by omega, by omega⟩
      · rcases CmdResult.bind_eq_error.1 h with h | ⟨a, _, h⟩
        · obtain ⟨h1, h2, h3⟩ := ih h; exact ⟨h1, by omega, by omega⟩
        · cases h

/-- The only fault of the pixel check: an uninitialised cell it reads. -/
theorem checkRaw_fault {raw : List Host.Cell} {c n : Nat} {f : Fault} (h : checkRaw raw c n = .fault f) :
    ∃ j, f = .commandReadUninitialised .raw j ∧ j < c + n ∧ Memory.read raw j = none := by
  induction n generalizing c with
  | zero => cases h
  | succ n ih =>
    unfold checkRaw at h
    split at h
    · next hn => cases h; exact ⟨c, rfl, by omega, hn⟩
    · split at h
      · cases h
      · rcases CmdResult.bind_eq_fault.1 h with h | ⟨a, _, h⟩
        · obtain ⟨j, h1, h2, h3⟩ := ih h; exact ⟨j, h1, by omega, h3⟩
        · cases h

/-! ### The PBM cells of UNPACK (41_pbm_codec R170) -/

theorem readPbm_of_row {pbm : List Host.Cell} {c : Nat} {row : List Byte}
    (hrow : ∀ k, k < row.length → Memory.read pbm (c + k) = row[k]?) : readPbm pbm c row.length = .ok row := by
  induction row generalizing c with
  | nil => rfl
  | cons v rest ih =>
    have h0 : Memory.read pbm c = some v := by simpa using hrow 0 (by simp)
    have hrest := ih (c := c + 1)
      (fun k hk => by
        have := hrow (k + 1) (by simpa using hk)
        rw [show c + 1 + k = c + (k + 1) by omega, this, List.getElem?_cons_succ])
    simp only [List.length_cons, readPbm, h0, hrest, CmdResult.bind_ok]

theorem readPbm_of_uninitialised {pbm : List Host.Cell} {c n k : Nat} (hk : k < n)
    (hbelow : ∀ d, d < k → (Memory.read pbm (c + d)).isSome = true) (hx : Memory.read pbm (c + k) = none) :
    readPbm pbm c n = .fault (.commandReadUninitialised .pbm (c + k)) := by
  induction k generalizing c n with
  | zero =>
    cases n with
    | zero => omega
    | succ n => simp only [readPbm, Nat.add_zero] at hx ⊢; simp only [hx]
  | succ k ih =>
    cases n with
    | zero => omega
    | succ n =>
      have hrest := ih (c := c + 1) (n := n) (by omega)
        (fun d hd => by rw [show c + 1 + d = c + (d + 1) by omega]; exact hbelow (d + 1) (by omega))
        (by rw [show c + 1 + k = c + (k + 1) by omega]; exact hx)
      rw [show c + (k + 1) = c + 1 + k by omega]
      obtain ⟨v, h0⟩ := Option.isSome_iff_exists.1 (hbelow 0 (by omega))
      simp only [Nat.add_zero] at h0
      simp only [readPbm, h0, hrest, CmdResult.bind_fault]

theorem readPbm_ok {pbm : List Host.Cell} {c n : Nat} {row : List Byte} (h : readPbm pbm c n = .ok row) :
    row.length = n ∧ ∀ k, k < row.length → Memory.read pbm (c + k) = row[k]? := by
  induction n generalizing c row with
  | zero => simp only [readPbm, CmdResult.ok.injEq] at h; subst h; simp
  | succ n ih =>
    unfold readPbm at h
    split at h
    · cases h
    · next v hv =>
      obtain ⟨rest, hr, hrow⟩ := CmdResult.bind_eq_ok.1 h
      cases hrow
      obtain ⟨hl, hreads⟩ := ih hr
      refine ⟨by simp [hl], ?_⟩
      intro k hk
      cases k with
      | zero => simpa using hv
      | succ k =>
        rw [show c + (k + 1) = c + 1 + k by omega, hreads k (by simpa using hk), List.getElem?_cons_succ]

/-- Reading scanline bytes never gives a command error: every byte value is legal. -/
theorem readPbm_not_error {pbm : List Host.Cell} {c n info : Nat} {e : CmdError} :
    readPbm pbm c n ≠ .error e info := by
  induction n generalizing c with
  | zero => simp [readPbm]
  | succ n ih =>
    unfold readPbm
    split
    · simp
    · intro h
      rcases CmdResult.bind_eq_error.1 h with h | ⟨a, _, h⟩
      · exact ih h
      · cases h

theorem readPbm_fault {pbm : List Host.Cell} {c n : Nat} {f : Fault} (h : readPbm pbm c n = .fault f) :
    ∃ j, f = .commandReadUninitialised .pbm j ∧ j < c + n ∧ Memory.read pbm j = none := by
  induction n generalizing c with
  | zero => cases h
  | succ n ih =>
    unfold readPbm at h
    split at h
    · next hn => cases h; exact ⟨c, rfl, by omega, hn⟩
    · rcases CmdResult.bind_eq_fault.1 h with h | ⟨a, _, h⟩
      · obtain ⟨j, h1, h2, h3⟩ := ih h; exact ⟨j, h1, by omega, h3⟩
      · cases h

/-! ### scan_sentinel (R121) -/

/-- The scan goes past initialised cells that do not hold the sentinel. -/
theorem scanFrom_skip {rle : List (Nat × Word)} {left i k : Nat}
    (h : ∀ j, j < k → ∃ x, Memory.read rle (i + j) = some x ∧ x ≠ sentinel) :
    scanFrom rle (k + left) i = scanFrom rle left (i + k) := by
  induction k generalizing i with
  | zero => simp
  | succ k ih =>
    obtain ⟨x, hx, hne⟩ := h 0 (by omega)
    rw [show k + 1 + left = (k + left) + 1 by omega]
    simp only [Nat.add_zero] at hx
    simp only [scanFrom, hx, if_neg hne]
    rw [ih (i := i + 1) fun j hj => by
      rw [show i + 1 + j = i + (j + 1) by omega]; exact h (j + 1) (by omega)]
    rw [show i + 1 + k = i + (k + 1) by omega]

/-- Where the scan ends with success. -/
theorem scanFrom_ok {rle : List (Nat × Word)} {left i k : Nat} (h : scanFrom rle left i = .ok k) :
    i ≤ k ∧ k < i + left ∧ Memory.read rle k = some sentinel ∧
      ∀ j, i ≤ j → j < k → ∃ x, Memory.read rle j = some x ∧ x ≠ sentinel := by
  induction left generalizing i with
  | zero => cases h
  | succ left ih =>
    unfold scanFrom at h
    split at h
    · cases h
    · next x hx =>
      split at h
      · next hs => cases h; subst hs; exact ⟨by omega, by omega, hx, by omega⟩
      · next hs =>
        obtain ⟨h1, h2, h3, h4⟩ := ih h
        refine ⟨by omega, by omega, h3, fun j hj hk => ?_⟩
        by_cases hij : j = i
        · subst hij; exact ⟨x, hx, hs⟩
        · exact h4 j (by omega) hk

/-- The only error of the scan: it met no sentinel. -/
theorem scanFrom_error {rle : List (Nat × Word)} {left i info : Nat} {e : CmdError}
    (h : scanFrom rle left i = .error e info) : e = .rleNoSentinel ∧ info = i + left := by
  induction left generalizing i with
  | zero => cases h; exact ⟨rfl, rfl⟩
  | succ left ih =>
    unfold scanFrom at h
    split at h
    · cases h
    · split at h
      · cases h
      · obtain ⟨h1, h2⟩ := ih h; exact ⟨h1, by omega⟩

theorem scanFrom_fault {rle : List (Nat × Word)} {left i : Nat} {f : Fault} (h : scanFrom rle left i = .fault f) :
    ∃ j, f = .commandReadUninitialised .rle j ∧ j < i + left ∧ Memory.read rle j = none := by
  induction left generalizing i with
  | zero => cases h
  | succ left ih =>
    unfold scanFrom at h
    split at h
    · next hn => cases h; exact ⟨i, rfl, by omega, hn⟩
    · split at h
      · cases h
      · obtain ⟨j, h1, h2, h3⟩ := ih h; exact ⟨j, h1, by omega, h3⟩

theorem scanSentinel_of_found {s : State} {i : Nat} (h1 : 1 ≤ i) (hi : i < s.params.rleCap)
    (hb : NoSentinelBelow s i) (hx : Memory.read s.rle i = some sentinel) : scanSentinel s = .ok i := by
  unfold scanSentinel
  have hskip := scanFrom_skip (rle := s.rle) (left := s.params.rleCap - 1 - (i - 1)) (i := 1) (k := i - 1)
    fun j hj => hb (1 + j) (by omega) (by omega)
  rw [show i - 1 + (s.params.rleCap - 1 - (i - 1)) = s.params.rleCap - 1 by omega,
    show 1 + (i - 1) = i by omega] at hskip
  rw [hskip, show s.params.rleCap - 1 - (i - 1) = (s.params.rleCap - 1 - i) + 1 by omega]
  simp only [scanFrom, hx, if_true]

theorem scanSentinel_of_uninitialised {s : State} {i : Nat} (h1 : 1 ≤ i) (hi : i < s.params.rleCap)
    (hb : NoSentinelBelow s i) (hx : Memory.read s.rle i = none) :
    scanSentinel s = .fault (.commandReadUninitialised .rle i) := by
  unfold scanSentinel
  have hskip := scanFrom_skip (rle := s.rle) (left := s.params.rleCap - 1 - (i - 1)) (i := 1) (k := i - 1)
    fun j hj => hb (1 + j) (by omega) (by omega)
  rw [show i - 1 + (s.params.rleCap - 1 - (i - 1)) = s.params.rleCap - 1 by omega,
    show 1 + (i - 1) = i by omega] at hskip
  rw [hskip, show s.params.rleCap - 1 - (i - 1) = (s.params.rleCap - 1 - i) + 1 by omega]
  simp only [scanFrom, hx]

theorem scanSentinel_of_none {s : State} (hb : NoSentinelBelow s s.params.rleCap) :
    scanSentinel s = .error .rleNoSentinel s.params.rleCap := by
  have hcap : 2 ≤ s.params.rleCap := by simp [Params.rleCap]
  have hskip := scanFrom_skip (rle := s.rle) (left := 0) (i := 1) (k := s.params.rleCap - 1)
    fun j hj => hb (1 + j) (by omega) (by omega)
  rw [scanSentinel, show s.params.rleCap - 1 = s.params.rleCap - 1 + 0 by omega, hskip, scanFrom,
    show 1 + (s.params.rleCap - 1) = s.params.rleCap by omega]

/-! ### check_rle (R119) -/

/-- A length below 2^31 is the signed value of its pattern. -/
theorem toS32_toU32 {r : Nat} (h : r < 2 ^ 31) : toS32 (toU32 r) = (r : Int) := by
  have hr : (BitVec.ofNat 32 r).toNat = r := by
    rw [BitVec.toNat_ofNat]; exact Nat.mod_eq_of_lt (by omega)
  rw [toS32, toU32, BitVec.toInt_eq_toNat_of_lt (by rw [hr]; omega), hr]

theorem toU32_toNat {r : Nat} (h : r < 2 ^ 32) : (toU32 r).toNat = r := by
  rw [toU32, BitVec.toNat_ofNat]; exact Nat.mod_eq_of_lt h

theorem toS32_sentinel : toS32 sentinel = -1 := by decide

theorem toS32_eq_neg_one {x : Word} : toS32 x = -1 ↔ x = sentinel := by
  constructor
  · intro h; exact BitVec.eq_of_toInt_eq (by rw [← toS32, h, ← toS32_sentinel, toS32])
  · rintro rfl; exact toS32_sentinel

/-- A positive signed value is the pattern of its length. -/
theorem toU32_toS32 {x : Word} (h : 0 ≤ toS32 x) : toU32 (toS32 x).toNat = x := by
  apply BitVec.eq_of_toNat_eq
  have hx := x.isLt
  rw [toU32, BitVec.toNat_ofNat]
  unfold toS32 at *
  rw [BitVec.toInt_eq_toNat_cond] at *
  split at h <;> split <;> omega

theorem length_le_sum {runs : List Nat} (h : ∀ r ∈ runs, 1 ≤ r) : runs.length ≤ runs.sum := by
  induction runs with
  | nil => simp
  | cons r rest ih =>
    have := h r (by simp)
    have := ih fun x hx => h x (by simp [hx])
    simp only [List.length_cons, List.sum_cons]
    omega

/-- The check goes past runs it accepts, and gives them before what the rest gives. -/
theorem checkRuns_accept {rle : List (Nat × Word)} {w left i sum : Nat} {runs : List Nat} (hw : w < 2 ^ 31)
    (hpos : ∀ r ∈ runs, 1 ≤ r) (hsum : sum + runs.sum ≤ w)
    (hread : ∀ k, k < runs.length → Memory.read rle (i + k) = (runs[k]?).map toU32) :
    checkRuns rle w (runs.length + left) i sum =
      (checkRuns rle w left (i + runs.length) (sum + runs.sum)).bind fun rest => .ok (runs ++ rest) := by
  induction runs generalizing i sum with
  | nil =>
    simp only [List.length_nil, List.sum_nil, Nat.add_zero, Nat.zero_add, List.nil_append]
    cases checkRuns rle w left i sum <;> rfl
  | cons r runs ih =>
    simp only [List.sum_cons] at hsum
    have hr1 := hpos r (by simp)
    have h0 : Memory.read rle i = some (toU32 r) := by simpa using hread 0 (by simp)
    have hs : toS32 (toU32 r) = (r : Int) := toS32_toU32 (by omega)
    have hrest := ih (i := i + 1) (sum := sum + r) (fun x hx => hpos x (by simp [hx])) (by omega)
      (fun k hk => by
        have := hread (k + 1) (by simpa using hk)
        rw [show i + 1 + k = i + (k + 1) by omega, this, List.getElem?_cons_succ])
    rw [List.length_cons, show runs.length + 1 + left = (runs.length + left) + 1 by omega]
    simp only [checkRuns, h0, hs, Int.toNat_natCast, hrest]
    rw [if_neg (by omega), if_neg (by omega), if_neg (by omega), List.sum_cons,
      show i + (runs.length + 1) = i + 1 + runs.length by omega,
      show sum + (r + runs.sum) = sum + r + runs.sum by omega]
    cases checkRuns rle w left (i + 1 + runs.length) (sum + r + runs.sum) <;> rfl

/-- What a passed row check says of the cells it read. -/
theorem checkRuns_ok {rle : List (Nat × Word)} {w left i sum : Nat} {runs : List Nat}
    (h : checkRuns rle w left i sum = .ok runs) :
    runs.length < left ∧ sum + runs.sum = w ∧ (∀ r ∈ runs, 1 ≤ r ∧ r ≤ w) ∧
      (∀ k, k < runs.length → Memory.read rle (i + k) = (runs[k]?).map toU32) ∧
      Memory.read rle (i + runs.length) = some sentinel := by
  induction left generalizing i sum runs with
  | zero => cases h
  | succ left ih =>
    unfold checkRuns at h
    split at h
    · cases h
    · next x hx =>
      split at h
      · next hm =>
        split at h
        · next he =>
          cases h
          rw [toS32_eq_neg_one] at hm
          subst hm
          exact ⟨by simp, by simpa using he, by simp, by simp, by simpa using hx⟩
        · cases h
      · next hm =>
        split at h
        · cases h
        · next hr =>
          split at h
          · cases h
          · next hle =>
            obtain ⟨rest, hrest, hruns⟩ := CmdResult.bind_eq_ok.1 h
            cases hruns
            obtain ⟨h1, h2, h3, h4, h5⟩ := ih hrest
            refine ⟨by simp; omega, by simp only [List.sum_cons]; omega, ?_, ?_, ?_⟩
            · intro r hr'
              rcases List.mem_cons.1 hr' with rfl | hr'
              · omega
              · exact h3 r hr'
            · intro k hk
              cases k with
              | zero =>
                simp only [Nat.add_zero, List.getElem?_cons_zero, Option.map_some]
                rw [toU32_toS32 (by omega)]
                exact hx
              | succ k =>
                rw [show i + (k + 1) = i + 1 + k by omega, h4 k (by simpa using hk), List.getElem?_cons_succ]
            · rw [List.length_cons, show i + (rest.length + 1) = i + 1 + rest.length by omega]
              exact h5

/-- The errors of the row check: RLE_NO_SENTINEL only where the runs could not pass `w` before the capacity. -/
theorem checkRuns_error {rle : List (Nat × Word)} {w left i sum info : Nat} {e : CmdError} (hsum : sum ≤ w)
    (h : checkRuns rle w left i sum = .error e info) :
    i ≤ info ∧ info ≤ i + left ∧ info + sum ≤ i + w ∧
      (e = .rleRun ∨ e = .rleSum ∨ (e = .rleNoSentinel ∧ sum + left ≤ w)) := by
  induction left generalizing i sum with
  | zero => cases h; exact ⟨by omega, by omega, by omega, .inr (.inr ⟨rfl, by omega⟩)⟩
  | succ left ih =>
    unfold checkRuns at h
    split at h
    · cases h
    · split at h
      · split at h
        · cases h
        · cases h; exact ⟨by omega, by omega, by omega, .inr (.inl rfl)⟩
      · split at h
        · cases h; exact ⟨by omega, by omega, by omega, .inl rfl⟩
        · split at h
          · cases h; exact ⟨by omega, by omega, by omega, .inr (.inl rfl)⟩
          · rcases CmdResult.bind_eq_error.1 h with h | ⟨a, _, h⟩
            · obtain ⟨h1, h2, h4, h3⟩ := ih (by omega) h
              refine ⟨by omega, by omega, by omega, ?_⟩
              rcases h3 with h3 | h3 | ⟨h3, h5⟩
              · exact .inl h3
              · exact .inr (.inl h3)
              · exact .inr (.inr ⟨h3, by omega⟩)
            · cases h

theorem checkRuns_fault {rle : List (Nat × Word)} {w left i sum : Nat} {f : Fault}
    (h : checkRuns rle w left i sum = .fault f) :
    ∃ j, f = .commandReadUninitialised .rle j ∧ j < i + left ∧ Memory.read rle j = none := by
  induction left generalizing i sum with
  | zero => cases h
  | succ left ih =>
    unfold checkRuns at h
    split at h
    · next hn => cases h; exact ⟨i, rfl, by omega, hn⟩
    · split at h
      · split at h <;> cases h
      · split at h
        · cases h
        · split at h
          · cases h
          · rcases CmdResult.bind_eq_fault.1 h with h | ⟨a, _, h⟩
            · obtain ⟨j, h1, h2, h3⟩ := ih h; exact ⟨j, h1, by omega, h3⟩
            · cases h

/-- The check of a row that begins with accepted runs goes on after them. -/
theorem checkRle_accept {s : State} {v : Byte} {runs : List Nat} (hw : s.width.toNat < 2 ^ 31)
    (hcap : s.width.toNat ≤ s.params.maxWidth) (h : AcceptedRuns s v runs) :
    checkRle s s.width.toNat =
      (checkRuns s.rle s.width.toNat (s.params.rleCap - 1 - runs.length) (runs.length + 1) runs.sum).bind
        fun rest => .ok (v, runs ++ rest) := by
  obtain ⟨hv, hpos, hsum, hread⟩ := h
  have hlen := length_le_sum hpos
  have h0 : Memory.read s.rle 0 = some (v.setWidth 32) := by simpa using hread 0 (by simp)
  have hlead : ¬(toS32 (v.setWidth 32) ≠ 0 ∧ toS32 (v.setWidth 32) ≠ 1) := by
    rcases hv with rfl | rfl <;> decide
  have hv8 : (v.setWidth 32 : Word).setWidth 8 = v := by rcases hv with rfl | rfl <;> decide
  have hacc := checkRuns_accept (left := s.params.rleCap - 1 - runs.length) (i := 1) (sum := 0) hw hpos
    (by omega) (fun k hk => by
      have := hread (k + 1) (by simpa using hk)
      rw [Nat.add_comm 1 k, this, List.getElem?_cons_succ, List.getElem?_map])
  have hcap' : runs.length + (s.params.rleCap - 1 - runs.length) = s.params.rleCap - 1 := by
    simp only [Params.rleCap]; omega
  rw [hcap', Nat.zero_add, Nat.add_comm 1] at hacc
  unfold checkRle
  simp only [h0, hv8, hacc]
  rw [if_neg hlead]
  cases checkRuns s.rle s.width.toNat (s.params.rleCap - 1 - runs.length) (runs.length + 1) runs.sum <;> rfl

/-- A valid row passes, and its leading value and runs are what the check gives. -/
theorem checkRle_of_row {s : State} {v : Byte} {runs : List Nat} (hw : s.width.toNat < 2 ^ 31)
    (hcap : s.width.toNat ≤ s.params.maxWidth) (hv : v = white ∨ v = black)
    (hruns : ValidRuns s.width.toNat runs) (hrow : HoldsRow s.rle (rleRow v runs)) :
    checkRle s s.width.toNat = .ok (v, runs) := by
  have hpos : ∀ r ∈ runs, 1 ≤ r := fun r hr => (hruns.2.1 r hr).1
  have hlen := length_le_sum hpos
  have hsum := hruns.2.2
  have hacc : AcceptedRuns s v runs := by
    refine ⟨hv, hpos, by omega, fun c hc => ?_⟩
    rw [hrow c (by simp [rleRow] at hc ⊢; omega)]
    simp only [rleRow]
    rw [← List.cons_append, List.getElem?_append_left hc]
  have hend : Memory.read s.rle (runs.length + 1) = some sentinel := by
    rw [hrow _ (by simp [rleRow])]
    simp [rleRow]
  rw [checkRle_accept hw hcap hacc,
    show s.params.rleCap - 1 - runs.length = (s.params.rleCap - 2 - runs.length) + 1 by
      simp only [Params.rleCap]; omega]
  simp only [checkRuns, hend, toS32_sentinel, if_pos hsum, if_true, CmdResult.bind_ok, List.append_nil]

/-- What a passed row check says of the buffer. -/
theorem checkRle_ok {s : State} {w : Nat} {x : Byte × List Nat} (hw : 1 ≤ w) (h : checkRle s w = .ok x) :
    (x.1 = white ∨ x.1 = black) ∧ ValidRuns w x.2 ∧ HoldsRow s.rle (rleRow x.1 x.2) ∧
      x.2.length + 2 ≤ s.params.rleCap := by
  unfold checkRle at h
  split at h
  · cases h
  · next y hy =>
    split at h
    · cases h
    · next hlead =>
      obtain ⟨runs, hr, hx⟩ := CmdResult.bind_eq_ok.1 h
      cases hx
      obtain ⟨h1, h2, h3, h4, h5⟩ := checkRuns_ok hr
      have hy01 : y = 0#32 ∨ y = 1#32 := by
        have : toS32 y = 0 ∨ toS32 y = 1 := by tauto
        rcases this with h | h
        · exact .inl (BitVec.eq_of_toInt_eq (by rw [← toS32, h]; rfl))
        · exact .inr (BitVec.eq_of_toInt_eq (by rw [← toS32, h]; rfl))
      have hback : ((y.setWidth 8).setWidth 32 : Word) = y := by rcases hy01 with rfl | rfl <;> decide
      have hy8 : y.setWidth 8 = white ∨ y.setWidth 8 = black := by
        rcases hy01 with rfl | rfl
        · exact .inl (by decide)
        · exact .inr (by decide)
      refine ⟨hy8, ⟨?_, h3, by simpa using h2⟩, ?_, by simp only []; omega⟩
      · rintro rfl
        simp at h2
        omega
      · intro c hc
        simp only [rleRow, hback] at hc ⊢
        cases c with
        | zero => simpa using hy
        | succ c =>
          rw [List.getElem?_cons_succ]
          simp only [List.length_cons, List.length_append, List.length_map, List.length_nil] at hc
          by_cases hcl : c < runs.length
          · rw [List.getElem?_append_left (by simpa using hcl), List.getElem?_map, Nat.add_comm, h4 c hcl]
          · have hce : c = runs.length := by omega
            subst hce
            rw [Nat.add_comm, h5]
            simp

/-- The errors of the row check: never RLE_NO_SENTINEL for a legal width (R122). -/
theorem checkRle_error {s : State} {w info : Nat} {e : CmdError} (hcap : w ≤ s.params.maxWidth)
    (h : checkRle s w = .error e info) :
    info ≤ w + 1 ∧ info ≤ s.params.rleCap ∧ (e = .rleLead ∨ e = .rleRun ∨ e = .rleSum) := by
  unfold checkRle at h
  split at h
  · cases h
  · split at h
    · cases h; exact ⟨by omega, by omega, .inl rfl⟩
    · rcases CmdResult.bind_eq_error.1 h with h | ⟨a, _, h⟩
      · obtain ⟨h1, h2, h0, h3⟩ := checkRuns_error (by omega) h
        simp only [Params.rleCap] at *
        refine ⟨by omega, by omega, ?_⟩
        rcases h3 with h3 | h3 | ⟨_, h4⟩
        · exact .inr (.inl h3)
        · exact .inr (.inr h3)
        · omega
      · cases h

theorem checkRle_fault {s : State} {w : Nat} {f : Fault} (h : checkRle s w = .fault f) :
    ∃ j, f = .commandReadUninitialised .rle j ∧ j < s.params.rleCap ∧ Memory.read s.rle j = none := by
  have hcap : 2 ≤ s.params.rleCap := by simp [Params.rleCap]
  unfold checkRle at h
  split at h
  · next hn => cases h; exact ⟨0, rfl, by omega, hn⟩
  · split at h
    · cases h
    · rcases CmdResult.bind_eq_fault.1 h with h | ⟨a, _, h⟩
      · obtain ⟨j, h1, h2, h3⟩ := checkRuns_fault h; exact ⟨j, h1, by omega, h3⟩
      · cases h

end Sys2Proof.Machine
end

