-- ==== Sys2Proof/Laws/Rows.lean ====
section
/-! SUPPORT. The small lemmas of the row functions: how long what they give is, and that its pixels are legal. -/

namespace Sys2Proof.Machine

/-! ### Runs (R115, R116, R120) -/

theorem runsFrom_ne_nil (p : Byte) (len : Nat) (rest : List Byte) : runsFrom p len rest ≠ [] := by
  induction rest generalizing p len with
  | nil => simp [runsFrom]
  | cons q rest ih =>
    unfold runsFrom
    split
    · exact ih p _
    · simp

theorem runsFrom_sum (p : Byte) (len : Nat) (rest : List Byte) :
    (runsFrom p len rest).sum = len + rest.length := by
  induction rest generalizing p len with
  | nil => simp [runsFrom]
  | cons q rest ih =>
    unfold runsFrom
    split
    · rw [ih, List.length_cons]; omega
    · rw [List.sum_cons, ih, List.length_cons]; omega

theorem runsFrom_pos (p : Byte) {len : Nat} (rest : List Byte) (h : 1 ≤ len) :
    ∀ r ∈ runsFrom p len rest, 1 ≤ r := by
  induction rest generalizing p len with
  | nil => simpa [runsFrom] using h
  | cons q rest ih =>
    unfold runsFrom
    split
    · exact ih p (by omega)
    · intro r hr
      rcases List.mem_cons.1 hr with rfl | hr
      · exact h
      · exact ih q (by omega) r hr

theorem runsFrom_length_le (p : Byte) (len : Nat) (rest : List Byte) :
    (runsFrom p len rest).length ≤ 1 + rest.length := by
  induction rest generalizing p len with
  | nil => simp [runsFrom]
  | cons q rest ih =>
    unfold runsFrom
    split
    · have := ih p (len + 1); simp only [List.length_cons]; omega
    · have := ih q 1; simp only [List.length_cons]; omega

/-- A row has at most as many runs as pixels. -/
theorem runList_length_le (p : List Byte) : (runList p).length ≤ p.length := by
  cases p with
  | nil => simp [runList]
  | cons q rest => have := runsFrom_length_le q 1 rest; simp only [runList, List.length_cons]; omega

theorem le_sum_of_mem {r : Nat} {runs : List Nat} (h : r ∈ runs) : r ≤ runs.sum := by
  induction runs with
  | nil => simp at h
  | cons q rest ih =>
    rw [List.sum_cons]
    rcases List.mem_cons.1 h with rfl | h
    · omega
    · have := ih h; omega

@[simp] theorem rleRow_length (v : Byte) (runs : List Nat) : (rleRow v runs).length = runs.length + 2 := by
  simp [rleRow]

/-- `compress` "Must allocate exactly `runCount+2` integers" (R116). -/
theorem rleEncode_length {p : List Byte} (h : p ≠ []) : (rleEncode p).length = (runList p).length + 2 := by
  cases p with
  | nil => exact absurd rfl h
  | cons q rest => simp [rleEncode]

/-- `decode` gives as many pixels as the runs sum to (R120). -/
@[simp] theorem expandRuns_length (v : Byte) (runs : List Nat) : (expandRuns v runs).length = runs.sum := by
  induction runs generalizing v with
  | nil => rfl
  | cons r rest ih => simp [expandRuns, ih]

theorem flip_legal {v : Byte} (h : v = white ∨ v = black) : 1#8 - v = white ∨ 1#8 - v = black := by
  rcases h with rfl | rfl
  · exact .inr (by decide)
  · exact .inl (by decide)

theorem expandRuns_legal {v : Byte} (h : v = white ∨ v = black) (runs : List Nat) :
    ∀ x ∈ expandRuns v runs, x = white ∨ x = black := by
  induction runs generalizing v with
  | nil => simp [expandRuns]
  | cons r rest ih =>
    intro x hx
    rcases List.mem_append.1 hx with hx | hx
    · rw [List.eq_of_mem_replicate hx]; exact h
    · exact ih (flip_legal h) x hx

/-! ### Scanlines (R160, R164) -/

@[simp] theorem packRow_length (p : List Byte) : (packRow p).length = scanlineBytes p.length := by
  simp [packRow]

@[simp] theorem unpackRow_length (bytes : List Byte) (w : Nat) : (unpackRow bytes w).length = w := by
  simp [unpackRow]

theorem unpackRow_getElem? {bytes : List Byte} {w c : Nat} (h : c < w) :
    (unpackRow bytes w)[c]? = some (unpackPixel bytes c) := by
  simp [unpackRow, h]

theorem packRow_getElem? {p : List Byte} {j : Nat} (h : j < scanlineBytes p.length) :
    (packRow p)[j]? = some (packByte p j) := by
  simp [packRow, h]

theorem unpackPixel_legal (bytes : List Byte) (c : Nat) :
    unpackPixel bytes c = white ∨ unpackPixel bytes c = black := by
  unfold unpackPixel
  split
  · exact .inr rfl
  · exact .inl rfl

theorem unpackRow_legal (bytes : List Byte) (w : Nat) :
    ∀ x ∈ unpackRow bytes w, x = white ∨ x = black := by
  intro x hx
  obtain ⟨c, _, rfl⟩ := List.mem_map.1 hx
  exact unpackPixel_legal bytes c

/-- Bit `7 - b` of a packed byte: the pixel of its column, 0 at or past the width (R161, R163). -/
theorem packByte_getLsbD (p : List Byte) (j b : Nat) (hb : b < 8) :
    (packByte p j).getLsbD (7 - b) = decide (p[8 * j + b]? = some black) := by
  have hbit : ∀ (c : Prop) [Decidable c] (acc : Byte) (k : Nat), (if c then acc ||| BitVec.twoPow 8 k else acc)
      = acc ||| (if c then BitVec.twoPow 8 k else 0#8) := by
    intro c _ acc k
    split <;> simp
  unfold packByte
  rw [show List.range 8 = [0, 1, 2, 3, 4, 5, 6, 7] by decide]
  simp only [List.foldl_cons, List.foldl_nil, hbit, BitVec.getLsbD_or]
  have hone : ∀ (c : Prop) [Decidable c] (k i : Nat), (if c then BitVec.twoPow 8 k else 0#8).getLsbD i
      = (decide c && decide (i < 8) && decide (k = i)) := by
    intro c _ k i
    split
    · next h =>
      by_cases hk : k = i
      · subst hk; simp [h, BitVec.getLsbD_twoPow]
      · simp [h, BitVec.getLsbD_twoPow, hk]
    · next h => simp [h]
  simp only [hone]
  have hcases : b = 0 ∨ b = 1 ∨ b = 2 ∨ b = 3 ∨ b = 4 ∨ b = 5 ∨ b = 6 ∨ b = 7 := by omega
  rcases hcases with rfl | rfl | rfl | rfl | rfl | rfl | rfl | rfl <;> simp

/-- The pixel that `unpack` gives is the bit of its column (R161). -/
theorem unpackPixel_eq_black (bytes : List Byte) (c : Nat) :
    unpackPixel bytes c = black ↔ (bytes.getD (c / 8) 0#8).getLsbD (7 - c % 8) = true := by
  unfold unpackPixel
  split
  · next h => simpa using h
  · next h => simp only [h, white, black]; decide

end Sys2Proof.Machine
end

