-- ==== Sys2Proof/Laws/Commands.lean ====
section
/-! SUPPORT. What each command can do: `conclude` once, and for each command what a next state, a fault and a
refusal mean. Later proofs cite these and do not unfold a command. -/

namespace Sys2Proof.Machine

/-! ### The end of a command (60_exceptions R205) -/

theorem conclude_next {s t : State} {r : CmdResult Commit} (h : conclude s r = .next t) :
    (∃ c, r = .ok c ∧ t = completeSuccess c.count c.written) ∨
    (∃ e n, r = .error e n ∧ t = completeError e n s) := by
  cases r with
  | ok c => cases h; exact .inl ⟨c, rfl, rfl⟩
  | error e n => cases h; exact .inr ⟨e, n, rfl, rfl⟩
  | fault f => cases h

theorem conclude_fault {s : State} {r : CmdResult Commit} {f : Fault} (h : conclude s r = .fault f) :
    r = .fault f := by
  cases r with
  | ok c => cases h
  | error e n => cases h
  | fault g => cases h; rfl

theorem conclude_not_refused (s : State) (r : CmdResult Commit) (f : Refusal) : conclude s r ≠ .refused f := by
  cases r <;> simp [conclude]

/-- A completion with an error is the state the claims call `failed`. -/
theorem completeError_eq (e : CmdError) (n : Nat) (s : State) : completeError e n s = failed s e.code n := rfl

theorem CmdError.code_ne_zero (e : CmdError) : e.code ≠ 0#4 := by cases e <;> decide

theorem CmdError.code_le (e : CmdError) : e.code.toNat ≤ 8 := by cases e <;> decide

theorem CmdError.code_eq_eight {e : CmdError} : e.code = 8#4 ↔ e = .rleNoSentinel := by cases e <;> decide

/-! ### Width, then pixels: the three commands that read RAW -/

/-- The checks of RUNCOUNT, COMPRESS and PACK, and what their answers say. -/
theorem rawChecks_ok {s : State} {x : Nat × List Byte}
    (h : ((checkWidth s).bind fun w => (checkRaw s.raw 0 w).bind fun row => .ok (w, row)) = .ok x) :
    LegalWidth s ∧ x.1 = s.width.toNat ∧ ValidRaw s.width.toNat x.2 ∧ HoldsRow s.raw x.2 := by
  obtain ⟨w, hw, h⟩ := CmdResult.bind_eq_ok.1 h
  obtain ⟨row, hr, hx⟩ := CmdResult.bind_eq_ok.1 h
  cases hx
  rcases checkWidth_cases s with ⟨_, hc⟩ | ⟨_, hc⟩ | ⟨hl, hc⟩ <;> rw [hc] at hw <;> cases hw
  obtain ⟨h1, h2, h3⟩ := checkRaw_ok hr
  exact ⟨hl, rfl, ⟨h1, h3⟩, fun c hcc => by simpa using h2 c hcc⟩

theorem checkRaw_of_holds {s : State} {p : List Byte} (hp : ValidRaw s.width.toNat p) (hr : HoldsRow s.raw p) :
    checkRaw s.raw 0 s.width.toNat = .ok p := by
  rw [← hp.1]
  exact checkRaw_of_row (fun k hk => by simpa using hr k hk) hp.2

/-- What a command of the shape "width, then pixels, then commit" has done when it answers a next state. -/
theorem rawCommand_next {s t : State} {f : Nat → List Byte → Commit}
    (h : conclude s ((checkWidth s).bind fun w => (checkRaw s.raw 0 w).bind fun row => .ok (f w row)) = .next t) :
    (∃ e n, n ≤ s.params.rleCap ∧ e ≠ .rleNoSentinel ∧ t = completeError e n s) ∨
    (∃ row, LegalWidth s ∧ ValidRaw s.width.toNat row ∧ HoldsRow s.raw row ∧
      t = completeSuccess (f s.width.toNat row).count (f s.width.toNat row).written) := by
  rcases conclude_next h with ⟨c, hc, rfl⟩ | ⟨e, n, he, rfl⟩
  · right
    obtain ⟨w, hw, hc⟩ := CmdResult.bind_eq_ok.1 hc
    obtain ⟨row, hr, hc⟩ := CmdResult.bind_eq_ok.1 hc
    cases hc
    obtain ⟨h1, h2, h3, h4⟩ := rawChecks_ok (s := s) (x := (w, row)) (by simp [hw, hr])
    simp only [] at h2 h3 h4
    exact ⟨row, h1, h3, h4, by rw [h2]⟩
  · left
    refine ⟨e, n, ?_⟩
    rcases checkWidth_cases s with ⟨_, hc⟩ | ⟨_, hc⟩ | ⟨hl, hc⟩ <;>
      simp only [hc, CmdResult.bind_error, CmdResult.bind_ok] at he
    · cases he; simp
    · cases he; simp
    · rcases CmdResult.bind_eq_error.1 he with he | ⟨_, _, he⟩
      · obtain ⟨h1, _, h3⟩ := checkRaw_error he
        refine ⟨?_, by simp [h1], rfl⟩
        simp only [Params.rleCap]; omega
      · cases he

/-! ### RUNCOUNT (R130) -/

theorem execRuncount_of_row {s : State} {p : List Byte} (hw : LegalWidth s) (hp : ValidRaw s.width.toNat p)
    (hr : HoldsRow s.raw p) : execRuncount s =
      .next (completeSuccess s.width.toNat (commitCount (runList p).length s)) := by
  simp only [execRuncount, checkWidth_legal hw, CmdResult.bind_ok, checkRaw_of_holds hp hr, conclude]

theorem execRuncount_next {s t : State} (h : execRuncount s = .next t) :
    (∃ e n, n ≤ s.params.rleCap ∧ e ≠ .rleNoSentinel ∧ t = completeError e n s) ∨
    (∃ row, LegalWidth s ∧ ValidRaw s.width.toNat row ∧ HoldsRow s.raw row ∧
      t = completeSuccess s.width.toNat (commitCount (runList row).length s)) := by
  exact rawCommand_next h

/-! ### COMPRESS (R135) -/

theorem execCompress_of_row {s : State} {p : List Byte} (hw : LegalWidth s) (hp : ValidRaw s.width.toNat p)
    (hr : HoldsRow s.raw p) : execCompress s =
      .next (completeSuccess (s.width.toNat + (runList p).length + 2)
        (commitRle (rleEncode p) ((runList p).length + 2) s)) := by
  simp only [execCompress, checkWidth_legal hw, CmdResult.bind_ok, checkRaw_of_holds hp hr, conclude]

theorem execCompress_next {s t : State} (h : execCompress s = .next t) :
    (∃ e n, n ≤ s.params.rleCap ∧ e ≠ .rleNoSentinel ∧ t = completeError e n s) ∨
    (∃ row, LegalWidth s ∧ ValidRaw s.width.toNat row ∧ HoldsRow s.raw row ∧
      t = completeSuccess (s.width.toNat + (runList row).length + 2)
        (commitRle (rleEncode row) ((runList row).length + 2) s)) := by
  exact rawCommand_next h

/-! ### PACK (R165) -/

theorem execPack_of_row {s : State} {p : List Byte} (hw : LegalWidth s) (hp : ValidRaw s.width.toNat p)
    (hr : HoldsRow s.raw p) : execPack s =
      .next (completeSuccess (s.width.toNat + scanlineBytes s.width.toNat)
        (commitPbm (packRow p) (scanlineBytes s.width.toNat) s)) := by
  simp only [execPack, checkWidth_legal hw, CmdResult.bind_ok, checkRaw_of_holds hp hr, conclude]

theorem execPack_next {s t : State} (h : execPack s = .next t) :
    (∃ e n, n ≤ s.params.rleCap ∧ e ≠ .rleNoSentinel ∧ t = completeError e n s) ∨
    (∃ row, LegalWidth s ∧ ValidRaw s.width.toNat row ∧ HoldsRow s.raw row ∧
      t = completeSuccess (s.width.toNat + scanlineBytes s.width.toNat)
        (commitPbm (packRow row) (scanlineBytes s.width.toNat) s)) := by
  exact rawCommand_next h

/-! ### DECOMPRESS (R140) -/

theorem execDecompress_of_check {s : State} {x : Byte × List Nat} (hw : LegalWidth s)
    (hx : checkRle s s.width.toNat = .ok x) : execDecompress s =
      .next (completeSuccess (x.2.length + 2 + s.width.toNat)
        (commitRaw (expandRuns x.1 x.2) s.width.toNat s)) := by
  simp only [execDecompress, checkWidth_legal hw, CmdResult.bind_ok, hx, conclude]

theorem execDecompress_next {s t : State} (h : execDecompress s = .next t) :
    (∃ e n, n ≤ s.params.rleCap ∧ e ≠ .rleNoSentinel ∧ t = completeError e n s) ∨
    (∃ v runs, LegalWidth s ∧ (v = white ∨ v = black) ∧ ValidRuns s.width.toNat runs ∧
      HoldsRow s.rle (rleRow v runs) ∧ checkRle s s.width.toNat = .ok (v, runs) ∧
      t = completeSuccess (runs.length + 2 + s.width.toNat) (commitRaw (expandRuns v runs) s.width.toNat s)) := by
  rcases checkWidth_cases s with ⟨_, hc⟩ | ⟨_, hc⟩ | ⟨hl, hc⟩ <;>
    simp only [execDecompress, hc, CmdResult.bind_ok, CmdResult.bind_error] at h
  · cases h; exact .inl ⟨_, _, by simp, by simp, rfl⟩
  · cases h; exact .inl ⟨_, _, by simp, by simp, rfl⟩
  · rcases conclude_next h with ⟨c, hk, rfl⟩ | ⟨e, n, he, rfl⟩
    · right
      obtain ⟨x, hx, hk⟩ := CmdResult.bind_eq_ok.1 hk
      cases hk
      obtain ⟨h1, h2, h3, _⟩ := checkRle_ok hl.1 hx
      exact ⟨x.1, x.2, hl, h1, h2, h3, hx, rfl⟩
    · left
      rcases CmdResult.bind_eq_error.1 he with he | ⟨_, _, he⟩
      · obtain ⟨_, h1, h2⟩ := checkRle_error hl.2 he
        refine ⟨e, n, h1, ?_, rfl⟩
        rcases h2 with rfl | rfl | rfl <;> simp
      · cases he

/-! ### SIZEOF (R145) and RUNSOF (R148) -/

theorem execSizeof_of_scan {s : State} {i : Nat} (h : scanSentinel s = .ok i) :
    execSizeof s = .next (completeSuccess i (commitCount (i + 1) s)) := by
  simp only [execSizeof, h, CmdResult.bind_ok, conclude]

theorem execRunsof_of_scan {s : State} {i : Nat} (h : scanSentinel s = .ok i) :
    execRunsof s = .next (completeSuccess i (commitCount (i - 1) s)) := by
  simp only [execRunsof, h, CmdResult.bind_ok, conclude]

/-- What the scan can answer. -/
theorem scanSentinel_cases (s : State) :
    (∃ i, scanSentinel s = .ok i ∧ 1 ≤ i ∧ i < s.params.rleCap ∧ Memory.read s.rle i = some sentinel ∧
      NoSentinelBelow s i) ∨
    (scanSentinel s = .error .rleNoSentinel s.params.rleCap) ∨
    (∃ j, scanSentinel s = .fault (.commandReadUninitialised .rle j) ∧ j < s.params.rleCap ∧
      Memory.read s.rle j = none) := by
  have hcap : 2 ≤ s.params.rleCap := by simp [Params.rleCap]
  cases h : scanSentinel s with
  | ok i =>
    obtain ⟨h1, h2, h3, h4⟩ := scanFrom_ok h
    exact .inl ⟨i, rfl, h1, by omega, h3, h4⟩
  | error e n =>
    obtain ⟨rfl, rfl⟩ := scanFrom_error h
    rw [show 1 + (s.params.rleCap - 1) = s.params.rleCap by omega]
    exact .inr (.inl rfl)
  | fault f =>
    obtain ⟨j, rfl, h2, h3⟩ := scanFrom_fault h
    exact .inr (.inr ⟨j, rfl, by omega, h3⟩)

theorem execSizeof_next {s t : State} (h : execSizeof s = .next t) :
    t = completeError .rleNoSentinel s.params.rleCap s ∨
    (∃ i, 1 ≤ i ∧ i < s.params.rleCap ∧ scanSentinel s = .ok i ∧
      t = completeSuccess i (commitCount (i + 1) s)) := by
  rcases scanSentinel_cases s with ⟨i, hi, h1, h2, _⟩ | hn | ⟨j, hj, _⟩
  · rw [execSizeof_of_scan hi] at h; cases h; exact .inr ⟨i, h1, h2, hi, rfl⟩
  · simp only [execSizeof, hn] at h; cases h; exact .inl rfl
  · simp only [execSizeof, hj] at h; cases h

theorem execRunsof_next {s t : State} (h : execRunsof s = .next t) :
    t = completeError .rleNoSentinel s.params.rleCap s ∨
    (∃ i, 1 ≤ i ∧ i < s.params.rleCap ∧ scanSentinel s = .ok i ∧
      t = completeSuccess i (commitCount (i - 1) s)) := by
  rcases scanSentinel_cases s with ⟨i, hi, h1, h2, _⟩ | hn | ⟨j, hj, _⟩
  · rw [execRunsof_of_scan hi] at h; cases h; exact .inr ⟨i, h1, h2, hi, rfl⟩
  · simp only [execRunsof, hn] at h; cases h; exact .inl rfl
  · simp only [execRunsof, hj] at h; cases h

/-! ### UNPACK (R170) -/

theorem execUnpack_of_bytes {s : State} {bytes : List Byte} (hw : LegalWidth s)
    (hl : bytes.length = scanlineBytes s.width.toNat) (hb : HoldsRow s.pbm bytes) : execUnpack s =
      .next (completeSuccess (scanlineBytes s.width.toNat + s.width.toNat)
        (commitRaw (unpackRow bytes s.width.toNat) s.width.toNat s)) := by
  have hr : readPbm s.pbm 0 (scanlineBytes s.width.toNat) = .ok bytes := by
    rw [← hl]; exact readPbm_of_row fun k hk => by simpa using hb k hk
  simp only [execUnpack, checkWidth_legal hw, CmdResult.bind_ok, hr, conclude]

theorem execUnpack_next {s t : State} (h : execUnpack s = .next t) :
    (∃ e n, n ≤ s.params.rleCap ∧ e ≠ .rleNoSentinel ∧ t = completeError e n s) ∨
    (∃ bytes, LegalWidth s ∧ bytes.length = scanlineBytes s.width.toNat ∧ HoldsRow s.pbm bytes ∧
      t = completeSuccess (scanlineBytes s.width.toNat + s.width.toNat)
        (commitRaw (unpackRow bytes s.width.toNat) s.width.toNat s)) := by
  rcases checkWidth_cases s with ⟨_, hc⟩ | ⟨_, hc⟩ | ⟨hl, hc⟩ <;>
    simp only [execUnpack, hc, CmdResult.bind_ok, CmdResult.bind_error] at h
  · cases h; exact .inl ⟨_, _, by simp, by simp, rfl⟩
  · cases h; exact .inl ⟨_, _, by simp, by simp, rfl⟩
  · rcases conclude_next h with ⟨c, hk, rfl⟩ | ⟨e, n, he, rfl⟩
    · right
      obtain ⟨bytes, hx, hk⟩ := CmdResult.bind_eq_ok.1 hk
      cases hk
      obtain ⟨h1, h2⟩ := readPbm_ok hx
      exact ⟨bytes, hl, h1, fun c hcc => by simpa using h2 c hcc, rfl⟩
    · rcases CmdResult.bind_eq_error.1 he with he | ⟨_, _, he⟩
      · exact absurd he readPbm_not_error
      · cases he

/-! ### Any command -/

/-- What a command that answers a next state has done: an error that RESULT and the cells do not see, or a
success whose state is that before it but for the cells, RESULT, ACCESS_COUNT, BUSY and DONE. -/
theorem exec_next (i : Instr) {s t : State} (h : exec i s = .next t) :
    (∃ e n, n ≤ s.params.rleCap ∧ t = completeError e n s) ∨
    (∃ n count, n ≤ s.params.rleCap ∧
      t = { s with raw := t.raw, rle := t.rle, pbm := t.pbm, result := toU32 n,
                   acount := s.acount + toU32 count, busy := false, done := true } ∧
      ((t.raw = s.raw ∧ t.rle = s.rle ∧ t.pbm = s.pbm) ∨
       (∃ row, row.length ≤ s.params.rawCap ∧ t.raw = Memory.writeList s.raw 0 row ∧ t.rle = s.rle ∧
          t.pbm = s.pbm) ∨
       (∃ row, row.length ≤ s.params.rleCap ∧ t.rle = Memory.writeList s.rle 0 row ∧ t.raw = s.raw ∧
          t.pbm = s.pbm) ∨
       (∃ row, row.length ≤ s.params.pbmCap ∧ t.pbm = Memory.writeList s.pbm 0 row ∧ t.raw = s.raw ∧
          t.rle = s.rle))) := by
  cases i with
  | runcount =>
    rcases execRuncount_next h with ⟨e, n, hn, _, rfl⟩ | ⟨row, hl, hv, _, rfl⟩
    · exact .inl ⟨e, n, hn, rfl⟩
    · have := runList_length_le row
      have := hv.1
      exact .inr ⟨_, _, by simp only [Params.rleCap]; omega, rfl, .inl ⟨rfl, rfl, rfl⟩⟩
  | compress =>
    rcases execCompress_next h with ⟨e, n, hn, _, rfl⟩ | ⟨row, hl, hv, _, rfl⟩
    · exact .inl ⟨e, n, hn, rfl⟩
    · have h1 := runList_length_le row
      have h2 := hv.1
      have hne : row ≠ [] := by rintro rfl; simp at h2; omega
      have h3 := rleEncode_length hne
      exact .inr ⟨_, _, by simp only [Params.rleCap]; omega, rfl, .inr (.inr (.inl
        ⟨rleEncode row, by simp only [Params.rleCap]; omega, rfl, rfl, rfl⟩))⟩
  | decompress =>
    rcases execDecompress_next h with ⟨e, n, hn, _, rfl⟩ | ⟨v, runs, hl, _, hv, _, _, rfl⟩
    · exact .inl ⟨e, n, hn, rfl⟩
    · have h1 := hv.2.2
      exact .inr ⟨_, _, by simp only [Params.rleCap]; omega, rfl, .inr (.inl
        ⟨expandRuns v runs, by simp only [expandRuns_length, Params.rawCap]; omega, rfl, rfl, rfl⟩)⟩
  | sizeof =>
    rcases execSizeof_next h with rfl | ⟨i, _, hi, _, rfl⟩
    · exact .inl ⟨_, _, le_refl _, rfl⟩
    · exact .inr ⟨_, _, by omega, rfl, .inl ⟨rfl, rfl, rfl⟩⟩
  | runsof =>
    rcases execRunsof_next h with rfl | ⟨i, _, hi, _, rfl⟩
    · exact .inl ⟨_, _, le_refl _, rfl⟩
    · exact .inr ⟨_, _, by omega, rfl, .inl ⟨rfl, rfl, rfl⟩⟩
  | pack =>
    rcases execPack_next h with ⟨e, n, hn, _, rfl⟩ | ⟨row, hl, hv, _, rfl⟩
    · exact .inl ⟨e, n, hn, rfl⟩
    · have h2 := hv.1
      exact .inr ⟨_, _, by simp only [scanlineBytes, Params.rleCap]; omega, rfl, .inr (.inr (.inr
        ⟨packRow row, by simp only [packRow_length, scanlineBytes, Params.pbmCap]; omega, rfl, rfl, rfl⟩))⟩
  | unpack =>
    rcases execUnpack_next h with ⟨e, n, hn, _, rfl⟩ | ⟨bytes, hl, _, _, rfl⟩
    · exact .inl ⟨e, n, hn, rfl⟩
    · exact .inr ⟨_, _, by simp only [Params.rleCap]; omega, rfl, .inr (.inl
        ⟨unpackRow bytes s.width.toNat, by simp only [unpackRow_length, Params.rawCap]; omega, rfl, rfl, rfl⟩)⟩

end Sys2Proof.Machine
end

