-- ==== Sys2Proof/Laws/PerInstr.lean ====
section
/-! SUPPORT. The family CommandWord: every command is well formed, its word is a well-formed command word of
30_encoding R90 and R93, and the table's number of it decodes to it. -/

namespace Sys2Proof.Laws.CommandWord

/-- RSV is 0, OP is 1 to 7, and the 32 bits of the table give the command back. -/
def Statement (i : Instr) : Prop :=
  i.wf = true ∧ commandWordWf (encode i) = true ∧ decodeTableWord 32 (encode i).toNat = some i

theorem runcount : Statement .runcount := by unfold Statement; decide

theorem compress : Statement .compress := by unfold Statement; decide

theorem decompress : Statement .decompress := by unfold Statement; decide

theorem sizeof : Statement .sizeof := by unfold Statement; decide

theorem runsof : Statement .runsof := by unfold Statement; decide

theorem pack : Statement .pack := by unfold Statement; decide

theorem unpack : Statement .unpack := by unfold Statement; decide

end Sys2Proof.Laws.CommandWord
end

