-- ==== Sys2Proof/Laws/Reads.lean ====
section
/-! SUPPORT. What each check reads: its answer is the same in every buffer that agrees on the cells up to the one
its answer names (30_encoding R92). -/

namespace Sys2Proof.Machine

/-! ### The checks, each over the cells it reads -/

theorem SameCells.mono {n : Nat} {m m' : List (Nat × BitVec n)} {lo lo' hi hi' : Nat} (h : SameCells m m' lo hi)
    (hlo : lo ≤ lo') (hhi : hi' ≤ hi) : SameCells m m' lo' hi' :=
  fun j h1 h2 => h j (by omega) (by omega)

theorem checkRaw_same {raw raw' : List Host.Cell} {c n : Nat} (h : SameCells raw raw' c (c + n)) :
    checkRaw raw' c n = checkRaw raw c n := by
  induction n generalizing c with
  | zero => rfl
  | succ n ih =>
    unfold checkRaw
    rw [h c (by omega) (by omega), ih (h.mono (by omega) (by omega))]

/-- An error of the pixel check does not depend on a cell past the one it names. -/
theorem checkRaw_error_same {raw raw' : List Host.Cell} {c n info : Nat} {e : CmdError}
    (h : checkRaw raw c n = .error e info) (hs : SameCells raw raw' c (info + 1)) :
    checkRaw raw' c n = .error e info := by
  induction n generalizing c with
  | zero => cases h
  | succ n ih =>
    have hc := (checkRaw_error h).2.1
    unfold checkRaw at h ⊢
    rw [hs c (by omega) (by omega)]
    split at h
    · cases h
    · split at h
      · next hv => rw [if_pos hv]; exact h
      · next hv =>
        rw [if_neg hv]
        rcases CmdResult.bind_eq_error.1 h with h | ⟨_, _, h⟩
        · rw [ih h (hs.mono (by omega) (by omega)), CmdResult.bind_error]
        · cases h

theorem readPbm_same {pbm pbm' : List Host.Cell} {j n : Nat} (h : SameCells pbm pbm' j (j + n)) :
    readPbm pbm' j n = readPbm pbm j n := by
  induction n generalizing j with
  | zero => rfl
  | succ n ih =>
    unfold readPbm
    rw [h j (by omega) (by omega), ih (h.mono (by omega) (by omega))]

/-- A scan that succeeds does not depend on a cell past its sentinel. -/
theorem scanFrom_ok_same {rle rle' : List (Nat × Word)} {left i k : Nat} (h : scanFrom rle left i = .ok k)
    (hs : SameCells rle rle' i (k + 1)) : scanFrom rle' left i = .ok k := by
  induction left generalizing i with
  | zero => cases h
  | succ left ih =>
    have hk := (scanFrom_ok h).1
    unfold scanFrom at h ⊢
    rw [hs i (by omega) (by omega)]
    split at h
    · cases h
    · split at h
      · next hx => rw [if_pos hx]; exact h
      · next hx => rw [if_neg hx]; exact ih h (hs.mono (by omega) (by omega))

theorem scanFrom_same {rle rle' : List (Nat × Word)} {left i : Nat} (h : SameCells rle rle' i (i + left)) :
    scanFrom rle' left i = scanFrom rle left i := by
  induction left generalizing i with
  | zero => rfl
  | succ left ih =>
    unfold scanFrom
    rw [h i (by omega) (by omega), ih (h.mono (by omega) (by omega))]

/-- A row check that succeeds does not depend on a cell past the row's sentinel. -/
theorem checkRuns_ok_same {rle rle' : List (Nat × Word)} {w left i sum : Nat} {runs : List Nat}
    (h : checkRuns rle w left i sum = .ok runs) (hs : SameCells rle rle' i (i + runs.length + 1)) :
    checkRuns rle' w left i sum = .ok runs := by
  induction left generalizing i sum runs with
  | zero => cases h
  | succ left ih =>
    unfold checkRuns at h ⊢
    rw [hs i (by omega) (by omega)]
    split at h
    · cases h
    · split at h
      · next hm => rw [if_pos hm]; exact h
      · next hm =>
        rw [if_neg hm]
        split at h
        · cases h
        · next hr =>
          rw [if_neg hr]
          split at h
          · cases h
          · next hl =>
            rw [if_neg hl]
            obtain ⟨rest, hrest, hruns⟩ := CmdResult.bind_eq_ok.1 h
            cases hruns
            rw [List.length_cons] at hs
            rw [ih hrest (hs.mono (by omega) (by omega)), CmdResult.bind_ok]

/-- An error of the row check does not depend on a cell past the one it names. -/
theorem checkRuns_error_same {rle rle' : List (Nat × Word)} {w left i sum info : Nat} {e : CmdError}
    (hsum : sum ≤ w) (h : checkRuns rle w left i sum = .error e info) (hs : SameCells rle rle' i (info + 1)) :
    checkRuns rle' w left i sum = .error e info := by
  induction left generalizing i sum with
  | zero => exact h
  | succ left ih =>
    have hi := (checkRuns_error hsum h).1
    unfold checkRuns at h ⊢
    rw [hs i (by omega) (by omega)]
    split at h
    · cases h
    · split at h
      · next hm => rw [if_pos hm]; exact h
      · next hm =>
        rw [if_neg hm]
        split at h
        · next hr => rw [if_pos hr]; exact h
        · next hr =>
          rw [if_neg hr]
          split at h
          · next hl => rw [if_pos hl]; exact h
          · next hl =>
            rw [if_neg hl]
            rcases CmdResult.bind_eq_error.1 h with h | ⟨_, _, h⟩
            · rw [ih (by omega) h (hs.mono (by omega) (by omega)), CmdResult.bind_error]
            · cases h

theorem checkRle_ok_same {s s' : State} {w : Nat} {x : Byte × List Nat} (hp : s'.params = s.params)
    (h : checkRle s w = .ok x) (hs : SameCells s.rle s'.rle 0 (x.2.length + 2)) : checkRle s' w = .ok x := by
  unfold checkRle at h ⊢
  rw [hs 0 (by omega) (by omega), hp]
  split at h
  · cases h
  · split at h
    · cases h
    · next hl =>
      rw [if_neg hl]
      obtain ⟨runs, hr, hx⟩ := CmdResult.bind_eq_ok.1 h
      cases hx
      rw [checkRuns_ok_same hr (hs.mono (by omega) (by simp only []; omega)), CmdResult.bind_ok]

theorem checkRle_error_same {s s' : State} {w info : Nat} {e : CmdError} (hp : s'.params = s.params)
    (h : checkRle s w = .error e info) (hs : SameCells s.rle s'.rle 0 (info + 1)) :
    checkRle s' w = .error e info := by
  unfold checkRle at h ⊢
  rw [hs 0 (by omega) (by omega), hp]
  split at h
  · cases h
  · split at h
    · next hl => rw [if_pos hl]; exact h
    · next hl =>
      rw [if_neg hl]
      rcases CmdResult.bind_eq_error.1 h with h | ⟨_, _, h⟩
      · rw [checkRuns_error_same (by omega) h (hs.mono (by omega) (by omega)), CmdResult.bind_error]
      · cases h

/-! ### Two states with the same operands -/

theorem checkWidth_same {s s' : State} (hp : s'.params = s.params) (hw : s'.width = s.width) :
    checkWidth s' = checkWidth s := by
  unfold checkWidth
  rw [hp, hw]

/-- The checks of RUNCOUNT, COMPRESS and PACK. -/
theorem rawChecks_same {i : Instr} {s s' : State} (hi : i = .runcount ∨ i = .compress ∨ i = .pack)
    (h : SameOperands i s s') {w : Nat} (hw : checkWidth s = .ok w) (hf : ∀ f, checkRaw s.raw 0 w ≠ .fault f) :
    checkRaw s'.raw 0 w = checkRaw s.raw 0 w := by
  have hs : SameCells s.raw s'.raw (readsFrom i) (readsTo i s) := by
    rcases hi with rfl | rfl | rfl <;> exact h.2.2
  cases hc : checkRaw s.raw 0 w with
  | ok row =>
    rw [← hc]
    refine checkRaw_same (hs.mono ?_ ?_) <;> rcases hi with rfl | rfl | rfl <;> simp [readsFrom, readsTo, hw, hc]
  | error e c =>
    refine checkRaw_error_same hc (hs.mono ?_ ?_) <;> rcases hi with rfl | rfl | rfl <;>
      simp [readsFrom, readsTo, hw, hc]
  | fault f => exact absurd hc (hf f)

/-- The row check of DECOMPRESS. -/
theorem rleCheck_same {s s' : State} (h : SameOperands .decompress s s') {w : Nat} (hw : checkWidth s = .ok w)
    (hf : ∀ f, checkRle s w ≠ .fault f) : checkRle s' w = checkRle s w := by
  obtain ⟨hp, _, hs⟩ := h
  cases hc : checkRle s w with
  | ok x => exact checkRle_ok_same hp hc (hs.mono (le_refl 0) (by simp [readsTo, hw, hc]))
  | error e j => exact checkRle_error_same hp hc (hs.mono (le_refl 0) (by simp [readsTo, hw, hc]))
  | fault f => exact absurd hc (hf f)

/-- The scan of SIZEOF and RUNSOF. -/
theorem scan_same {i : Instr} {s s' : State} (hi : i = .sizeof ∨ i = .runsof) (h : SameOperands i s s')
    (hf : ∀ f, scanSentinel s ≠ .fault f) : scanSentinel s' = scanSentinel s := by
  have hs : SameCells s.rle s'.rle (readsFrom i) (readsTo i s) := by rcases hi with rfl | rfl <;> exact h.2
  have hp := h.1
  cases hc : scanSentinel s with
  | ok k =>
    unfold scanSentinel
    rw [hp]
    refine scanFrom_ok_same hc (hs.mono ?_ ?_) <;> rcases hi with rfl | rfl <;> simp [readsFrom, readsTo, hc]
  | error e n =>
    obtain ⟨_, rfl⟩ := scanFrom_error hc
    rw [← hc]
    unfold scanSentinel
    rw [hp]
    refine scanFrom_same (hs.mono ?_ ?_) <;> rcases hi with rfl | rfl <;> simp [readsFrom, readsTo, hc]
  | fault f => exact absurd hc (hf f)

/-- The scanline bytes of UNPACK. -/
theorem pbmRead_same {s s' : State} (h : SameOperands .unpack s s') {w : Nat} (hw : checkWidth s = .ok w) :
    readPbm s'.pbm 0 (scanlineBytes w) = readPbm s.pbm 0 (scanlineBytes w) :=
  readPbm_same (h.2.2.mono (le_refl 0) (by simp [readsTo, hw]))

end Sys2Proof.Machine
end

