-- ==== Sys2Proof/Laws/Step.lean ====
section
/-! SUPPORT. What one step can do: a completion, a HOST line, or nothing. Every invariant is derived from these. -/

namespace Sys2Proof.Machine

theorem nextAgent_engine {s : State} : nextAgent s = .engine ↔ EngineTurn s := by
  unfold nextAgent EngineTurn
  split
  · next h => simpa using h
  · next h => split <;> simpa using h

/-- A step that answers a next state is a completion, a HOST step, or leaves the state. -/
theorem step_next {s t : State} (h : step s = .next t) :
    (EngineTurn s ∧ engineStep s = .next t) ∨ (¬EngineTurn s ∧ hostStep s = .next t) ∨ t = s := by
  unfold step at h
  split at h
  · next hn => exact .inl ⟨nextAgent_engine.1 hn, h⟩
  · next hn => exact .inr (.inl ⟨fun he => (by rw [nextAgent_engine.2 he] at hn; cases hn), h⟩)
  · cases h; exact .inr (.inr rfl)

/-- A completion that answers a next state is BAD_COMMAND, another error, or a success. -/
theorem engineStep_next {s t : State} (h : engineStep s = .next t) :
    (∃ e n, n ≤ s.params.rleCap ∧ t = completeError e n s) ∨
    (∃ i, decode s.lcmd = .command i ∧ exec i s = .next t) := by
  unfold engineStep at h
  split at h
  · cases h; exact .inl ⟨_, 0, by omega, rfl⟩
  · next i hi => exact .inr ⟨i, hi, h⟩

/-- The fields of the HOST and of the model that a HOST step may change without touching the block. -/
theorem hostStep_next {s t : State} (h : hostStep s = .next t) :
    (t = { s with hostPc := t.hostPc, wait := t.wait, scratch := t.scratch, draws := t.draws }) ∨
    (∃ addr n v, memWrite addr n v (hostAdvance s) = .next t) ∨
    (t = powerOnReset (hostAdvance s)) := by
  unfold hostStep at h
  split at h
  · cases h; exact .inl rfl
  · cases h; exact .inl rfl
  · next op _ _ =>
    unfold runHostOp at h
    split at h
    · exact .inr (.inl ⟨_, _, _, h⟩)
    · obtain ⟨v, d, rfl, _⟩ := memRead_next h; exact .inl rfl
    · cases h; left; split <;> rfl
    · cases h; left; split <;> rfl
    · cases h; exact .inl rfl
    · obtain ⟨v, d, rfl, _⟩ := memRead_next h; exact .inl rfl
    · exact .inr (.inl ⟨_, _, _, h⟩)
    · cases h; exact .inr (.inr rfl)

end Sys2Proof.Machine
end

