-- ==== Sys2Proof/Tests/Slice0.lean ====
section
/-! SUPPORT. The model's own tests: words written out from 30_encoding, ill-formed terms, vectors of
95_test_vectors, and for each obligation with hypotheses a witness that meets them. Every expected value comes
from the rule or the vector that the comment names. -/

namespace Sys2Proof.Tests

open Sys2Proof.Machine

/-! ### Small states -/

/-- MAX_WIDTH = 10, so RAW_CAP = 10, RLE_CAP = 12, PBM_CAP = 2 and S = 256; the window is at 0x400. -/
def small : Params where
  maxWidth := 10
  base := 0x400

/-- An idle block that holds the three rows from cell 0 on, every other cell uninitialised. -/
def block (w : Nat) (raw : List Byte) (rle : List Word) (pbm : List Byte) : State :=
  { State.resetWith small with
    width := toU32 w, raw := Memory.writeList [] 0 raw, rle := Memory.writeList [] 0 rle,
    pbm := Memory.writeList [] 0 pbm }

/-- The block with the word `w` in flight and no latency left. -/
def flying (w : Nat) (s : State) : State := s.withFetchWord 32 w

/-- The row of vectors V44 and V47, at the width MAX_WIDTH. -/
def rowTen : List Byte := [1#8, 1#8, 0#8, 0#8, 0#8, 0#8, 1#8, 1#8, 0#8, 1#8]

/-- A block in which all seven commands succeed: the row of V44 in its three forms. -/
def full : State := block 10 rowTen [1#32, 2#32, 4#32, 2#32, 1#32, 1#32, 0xFFFFFFFF#32] [0xC3#8, 0x40#8]

/-- A block with every cell of every buffer initialised. -/
def filled : State := block 10 rowTen (List.replicate 12 5#32) [0xC3#8, 0x40#8]

/-- A field of the next state. -/
def view {α : Type} (f : State → α) : Host.Outcome State Fault Refusal → Option α
  | .next t => some (f t)
  | .fault _ => none
  | .refused _ => none

/-- The fault of an outcome. -/
def faultOf : Host.Outcome State Fault Refusal → Option Fault
  | .next _ => none
  | .fault f => some f
  | .refused _ => none

/-- RESULT, ACCESS_COUNT, ERRCODE and ERRINFO. -/
def report (s : State) : Nat × Nat × Nat × Nat :=
  (s.result.toNat, s.acount.toNat, s.errcode.toNat, s.errinfo.toNat)

/-! ### Decoding: RSV in bits 31:4, OP in bits 3:0 (30_encoding R90, R93) -/

theorem test_decode_runcount : decode (0b0000000000000000000000000000#28 ++ 0b0001#4) = .command .runcount := by
  decide

theorem test_decode_compress : decode (0b0000000000000000000000000000#28 ++ 0b0010#4) = .command .compress := by
  decide

theorem test_decode_decompress :
    decode (0b0000000000000000000000000000#28 ++ 0b0011#4) = .command .decompress := by
  decide

theorem test_decode_sizeof : decode (0b0000000000000000000000000000#28 ++ 0b0100#4) = .command .sizeof := by
  decide

theorem test_decode_runsof : decode (0b0000000000000000000000000000#28 ++ 0b0101#4) = .command .runsof := by
  decide

theorem test_decode_pack : decode (0b0000000000000000000000000000#28 ++ 0b0110#4) = .command .pack := by
  decide

theorem test_decode_unpack : decode (0b0000000000000000000000000000#28 ++ 0b0111#4) = .command .unpack := by
  decide

/-- V54 to V58: an OP of the map with a reserved bit set is no command. -/
theorem test_decode_reserved :
    decode (0b0000000000000000000000000000#28 ++ 0b0000#4) = .badCommand ∧
    decode (0b0000000000000000000000000000#28 ++ 0b1000#4) = .badCommand ∧
    decode (0b0000000000000000000000000001#28 ++ 0b0010#4) = .badCommand ∧
    decode (0b1000000000000000000000000000#28 ++ 0b0001#4) = .badCommand := by decide

/-- The seven words, as spec/opcode_table.json numbers them. -/
theorem test_decode_table :
    (List.range 9).map (decodeTableWord 32) = [none, some .runcount, some .compress, some .decompress,
      some .sizeof, some .runsof, some .pack, some .unpack, none] := by decide

/-! ### Well-formedness: one ill-formed term for each check -/

theorem test_wf_words : (List.range 8).map (fun n => commandWordWf (BitVec.ofNat 32 n)) =
    [false, true, true, true, true, true, true, true] := by decide

/-- RSV not 0; OP 0; OP above 7. -/
theorem test_ill_formed_words : commandWordWf 0x00000012#32 = false ∧ commandWordWf 0x00000000#32 = false ∧
    commandWordWf 0x00000008#32 = false := by decide

theorem test_wf_instr : ∀ i : Instr, i.wf = true := by intro i; cases i <;> rfl

/-- MAX_WIDTH 0; MAX_WIDTH above 2^28 - 2; BASE no multiple of 4*S (00_scope R5). -/
theorem test_ill_formed_params : Params.wf { maxWidth := 0, base := 0 } = false ∧
    Params.wf { maxWidth := 2 ^ 28 - 1, base := 0 } = false ∧
    Params.wf { maxWidth := 62, base := 0x300 } = false ∧
    Params.wf { maxWidth := 62, base := 0x400 } = true := by decide +kernel

/-! ### Vectors, at most two a command -/

/-- V1. -/
theorem test_runcount_counts : view report (exec .runcount (block 6 [1#8, 1#8, 0#8, 0#8, 0#8, 1#8] [] [])) =
    some (3, 6, 0, 0) := by decide

/-- V7. -/
theorem test_runcount_bad_pixel : view report (exec .runcount (block 4 [0#8, 1#8, 2#8, 3#8] [] [])) =
    some (0, 0, 4, 2) := by decide

/-- V14. -/
theorem test_compress_row : view (fun t => (report t, t.rle))
    (exec .compress (block 6 [1#8, 1#8, 0#8, 0#8, 0#8, 1#8] [] [])) =
    some ((5, 11, 0, 0), [(0, 1#32), (1, 2#32), (2, 3#32), (3, 1#32), (4, 0xFFFFFFFF#32)]) := by decide

/-- V17. -/
theorem test_compress_bad_pixel : view (fun t => (report t, t.rle)) (exec .compress (block 3 [1#8, 0#8, 0xFF#8] [] [])) =
    some ((0, 0, 4, 2), []) := by decide

/-- V20. -/
theorem test_decompress_row : view (fun t => (report t, t.raw.map Prod.snd))
    (exec .decompress (block 6 [] [1#32, 2#32, 3#32, 1#32, 0xFFFFFFFF#32] [])) =
    some ((6, 11, 0, 0), [1#8, 1#8, 0#8, 0#8, 0#8, 1#8]) := by decide

/-- V30: each run is at most the width, and the sum passes it. -/
theorem test_decompress_sum : view (fun t => (report t, t.raw))
    (exec .decompress (block 4 [] [0#32, 4#32, 4#32, 0xFFFFFFFF#32] [])) = some ((0, 0, 7, 2), []) := by decide

/-- V33. -/
theorem test_sizeof_row : view report (exec .sizeof (block 0 [] [1#32, 2#32, 2#32, 0xFFFFFFFF#32] [])) =
    some (4, 3, 0, 0) := by decide

/-- V36: the scan does not read cell 0. -/
theorem test_sizeof_skips_cell_zero : view report (exec .sizeof (block 0 [] [0xFFFFFFFF#32, 3#32, 0xFFFFFFFF#32] [])) =
    some (3, 2, 0, 0) := by decide

/-- V35. -/
theorem test_runsof_no_runs : view report (exec .runsof (block 0 [] [0#32, 0xFFFFFFFF#32] [])) =
    some (0, 1, 0, 0) := by decide

/-- V38, with the RLE_CAP of this block. -/
theorem test_runsof_no_sentinel : view report (exec .runsof filled) = some (0, 0, 8, 12) := by decide

/-- V44. -/
theorem test_pack_row : view (fun t => (report t, t.pbm)) (exec .pack (block 10 rowTen [] [])) =
    some ((2, 12, 0, 0), [(0, 0xC3#8), (1, 0x40#8)]) := by decide

/-- V46. -/
theorem test_pack_bad_pixel : view (fun t => (report t, t.pbm)) (exec .pack (block 3 [1#8, 2#8, 1#8] [] [])) =
    some ((0, 0, 4, 1), []) := by decide

/-- V47. -/
theorem test_unpack_row : view (fun t => (report t, t.raw.map Prod.snd)) (exec .unpack (block 10 [] [] [0xC3#8, 0x40#8])) =
    some ((10, 12, 0, 0), rowTen) := by decide

/-- V49: padding bits are not read. -/
theorem test_unpack_padding : view (fun t => (report t, t.raw.map Prod.snd)) (exec .unpack (block 3 [] [] [0xBF#8])) =
    some ((3, 4, 0, 0), [1#8, 0#8, 1#8]) := by decide

/-- V74: the counter wraps. -/
theorem test_counter_wraps : view report (exec .runcount { block 4 [0#8, 0#8, 0#8, 0#8] [] [] with
    acount := 0xFFFFFFFE#32 }) = some (1, 2, 0, 0) := by decide

/-- The first instruction after reset: WIDTH is 0 (10_state R43), so RUNCOUNT completes with WIDTH_ZERO. -/
theorem test_fetch_word_runs : view report (step (State.reset.withFetchWord 32 1)) = some (0, 0, 2, 0) := by decide

/-- Straight after reset SIZEOF reads `RLE[1]`, which is uninitialised (70_reset R232 b). -/
theorem test_fetch_word_sizeof : faultOf (step (State.reset.withFetchWord 32 4)) =
    some (.commandReadUninitialised .rle 1) := by decide

/-! ### The bus -/

/-- V61: ID, CAPS (here 10) and STRIDE. -/
theorem test_identification :
    view (fun t => t.scratch[0]) (memRead 0x400 4 0 (block 0 [] [] [])) = some 0x524C4331#32 ∧
    view (fun t => t.scratch[1]) (memRead 0x404 4 1 (block 0 [] [] [])) = some 10#32 ∧
    view (fun t => t.scratch[15]) (memRead 0x408 4 15 (block 0 [] [] [])) = some 0x100#32 := by decide

/-- V64, V65: unmapped, misaligned, wrong size. -/
theorem test_bus_errors :
    faultOf (memRead 0x428 4 0 full) = some .busError ∧ faultOf (memWrite 0x4FC 4 1#32 full) = some .busError ∧
    faultOf (memRead 0x402 4 0 full) = some .busError ∧ faultOf (memRead 0x414 2 0 full) = some .busError := by
  decide

/-- V68: little-endian lanes. -/
theorem test_lanes_write : view (fun t => t.raw) (memWrite 0x500 4 0x04030201#32 (block 0 [] [] [])) =
    some [(0, 1#8), (1, 2#8), (2, 3#8), (3, 4#8)] := by decide

/-- V67, at the last RAW word of this block (cells 8 and 9): padding lanes are not stored, and read 0. -/
theorem test_lanes_padding :
    view (fun t => t.raw) (memWrite 0x508 4 0xFFFF0101#32 (block 0 [] [] [])) = some [(8, 1#8), (9, 1#8)] ∧
    view (fun t => t.scratch[0]) (memRead 0x508 4 0 (block 0 [0#8, 0#8, 0#8, 0#8, 0#8, 0#8, 0#8, 0#8, 1#8, 1#8] [] [])) =
      some 0x00000101#32 := by decide

/-- V71, V72: an error completion, the STATUS word it leaves, `irq`, and the acknowledge. -/
theorem test_error_status :
    view (fun t => (statusWord t, irq t)) (step { flying 1 (block 0 [] [] []) with ie := true }) =
      some (0x00000206#32, true) ∧
    view (fun t => (statusWord t, irq t)) (memWrite 0x414 4 0x2#32
      { block 0 [] [] [] with ie := true, done := true, errcode := 2#4 }) = some (0x00000204#32, false) := by decide

/-- V75, V77: writes to WIDTH and CMD in flight are dropped and set WERR. -/
theorem test_writes_in_flight :
    view (fun t => (t.width, t.werr)) (memWrite 0x418 4 9#32 (flying 1 (block 4 [] [] []))) = some (4#32, true) ∧
    view (fun t => (t.lcmd, t.werr)) (memWrite 0x410 4 2#32 (flying 1 (block 4 [] [] []))) = some (1#32, true) := by
  decide

/-- V78: a soft reset in flight leaves `RLE[0..5]` initialised, for the width 4, and no other cell. -/
theorem test_soft_reset_cells : view (fun t => (t.rle.map Prod.fst, t.busy, t.width))
    (memWrite 0x40C 4 2#32 (flying 2 (block 4 [0#8, 0#8, 0#8, 0#8] [] []))) =
      some ([0, 1, 2, 3, 4, 5], false, 0#32) := by decide

/-! ### Witnesses: for each obligation with hypotheses, states and operands that meet them, clause by clause -/

/-- A block of width 4 with the HOST still running, three HOST steps before its completion. -/
def waiting : State :=
  { flying 1 (block 4 [0#8, 0#8, 1#8, 1#8] [] []) with
    wait := 3, program := [.rd 0x14 0, .bnz 0 0x1#32 0, .wr 0x18 8#32, .halt] }

/-- The rows' hypotheses at the width 10 = MAX_WIDTH: a legal width and a valid RAW row in the buffer. -/
theorem witness_raw_row : LegalWidth full ∧ ValidRaw full.width.toNat rowTen ∧ HoldsRow full.raw rowTen := by
  decide

/-- The same at the width 1. -/
theorem witness_raw_row_one : LegalWidth (block 1 [1#8] [] []) ∧ ValidRaw (block 1 [1#8] [] []).width.toNat [1#8] ∧
    HoldsRow (block 1 [1#8] [] []).raw [1#8] := by decide

/-- A valid RLE row at the width 10 = MAX_WIDTH. -/
theorem witness_rle_row : full.params.wf = true ∧ LegalWidth full ∧ (black = white ∨ black = black) ∧
    ValidRuns full.width.toNat [2, 4, 2, 1, 1] ∧ HoldsRow full.rle (rleRow black [2, 4, 2, 1, 1]) := by decide +kernel

/-- Width 0, width MAX_WIDTH + 1, and a bad pixel in the last column: the checks of RUNCOUNT, COMPRESS, PACK. -/
theorem witness_width_and_pixels : (block 0 [] [] []).width.toNat = 0 ∧ small.maxWidth < (block 11 [] [] []).width.toNat ∧
    LegalWidth (block 10 (rowTen.take 9 ++ [2#8]) [] []) ∧
    LegalPixelsBelow (block 10 (rowTen.take 9 ++ [2#8]) [] []) 9 ∧
    Memory.read (block 10 (rowTen.take 9 ++ [2#8]) [] []).raw 9 = some 2#8 ∧ 2#8 ≠ white ∧ 2#8 ≠ black := by decide

theorem witness_StepRunsLatchedCommand :
    (∀ i : Instr, EngineTurn (flying (encode i).toNat full) ∧ decode (flying (encode i).toNat full).lcmd = .command i) ∧
    EngineTurn { flying 1 full with wait := 5 } := by
  refine ⟨fun i => ?_, by decide⟩
  cases i <;> decide

theorem witness_ReservedWordCompletesBadCommand : decode 0x00000012#32 = .badCommand ∧ full.busy = false ∧
    EngineTurn (flying 0x12 full) ∧ (flying 0x12 full).lcmd = 0x00000012#32 := by decide

theorem witness_HostLineRunsOnItsTurn :
    (waiting.program[waiting.hostPc]? = some (.rd 0x14 0) ∧ HostOp.rd 0x14 0 ≠ .halt ∧ waiting.wait ≠ 0) ∧
    (full.busy = false ∧ hostEnded full = true) := by decide

theorem witness_HostNotationLines :
    ({ full with scratch := full.scratch.set 3 2#32 } : State).scratch[3] &&& 2#32 ≠ 0#32 ∧
    full.scratch[3] &&& 2#32 = 0#32 ∧
    ({ full with program := [.halt] } : State).program[full.hostPc]? = some .halt := by decide

theorem witness_CompletionEventuallyTaken : waiting.busy = true ∧ (flying 1 full).busy = true := by decide

theorem witness_EitherOrderAdmitted : waiting.busy = true ∧ hostEnded waiting = false := by decide

theorem witness_SizeofRule :
    (NoSentinelBelow (block 0 [] [0#32, 0xFFFFFFFF#32] []) 1 ∧
      Memory.read (block 0 [] [0#32, 0xFFFFFFFF#32] []).rle 1 = some 0xFFFFFFFF#32) ∧
    (11 < small.rleCap ∧ NoSentinelBelow (block 0 [] (List.replicate 11 5#32 ++ [0xFFFFFFFF#32]) []) 11 ∧
      Memory.read (block 0 [] (List.replicate 11 5#32 ++ [0xFFFFFFFF#32]) []).rle 11 = some 0xFFFFFFFF#32) ∧
    NoSentinelBelow filled filled.params.rleCap := by
  refine ⟨⟨fun j h1 h2 => by omega, by decide⟩, ⟨by decide, fun j h1 h2 => ?_, by decide⟩, fun j h1 h2 => ?_⟩
  · exact ⟨5#32, by revert j; decide, by decide⟩
  · exact ⟨5#32, by revert j; decide, by decide⟩

theorem witness_UnpackRule : LegalWidth full ∧ [0xC3#8, 0x40#8].length = (full.width.toNat + 7) / 8 ∧
    HoldsRow full.pbm [0xC3#8, 0x40#8] := by decide

/-- One state a clause: a bad leading value; a sentinel too early; a zero run, a run above the width, a negative
run; a run that takes the sum past the width. -/
theorem witness_RleRowChecks : small.wf = true ∧
    (LegalWidth (block 4 [] [2#32] []) ∧ Memory.read (block 4 [] [2#32] []).rle 0 = some 2#32) ∧
    (AcceptedRuns (block 5 [] [1#32, 2#32, 2#32, 0xFFFFFFFF#32] []) black [2, 2] ∧
      Memory.read (block 5 [] [1#32, 2#32, 2#32, 0xFFFFFFFF#32] []).rle 3 = some 0xFFFFFFFF#32 ∧ [2, 2].sum ≠ 5) ∧
    (AcceptedRuns (block 4 [] [0#32, 0#32] []) white [] ∧ toS32 0#32 < 1 ∧ (4 : Int) < toS32 5#32 ∧
      toS32 0x80000000#32 < 1) ∧
    (AcceptedRuns (block 4 [] [0#32, 4#32, 4#32] []) white [4] ∧
      Memory.read (block 4 [] [0#32, 4#32, 4#32] []).rle 2 = some 4#32 ∧ 1 ≤ toS32 4#32 ∧ toS32 4#32 ≤ 4 ∧
      (4 : Int) - ([4].sum : Nat) < toS32 4#32) := by decide +kernel

/-- The row of V28, whose check raises at its sentinel; a command that completes. -/
theorem witness_NoSentinelErrorOnlyFromScan :
    (LegalWidth (block 5 [] [1#32, 2#32, 2#32, 0xFFFFFFFF#32] []) ∧
      checkRle (block 5 [] [1#32, 2#32, 2#32, 0xFFFFFFFF#32] []) 5 = .error .rleSum 3) ∧
    ∃ t, exec .decompress (block 4 [] [2#32] []) = .next t ∧ (block 4 [] [2#32] []).errcode = 0#4 :=
  ⟨by decide, _, rfl, rfl⟩

/-- One state a clause: the last column, the last scanline byte, the last RLE cell, cell 0, the cell after a run. -/
theorem witness_UninitialisedCellFaultsCommand :
    (LegalPixelsBelow (block 10 (rowTen.take 9) [] []) 9 ∧ Memory.read (block 10 (rowTen.take 9) [] []).raw 9 = none) ∧
    (AllInitialised 1 (block 10 [] [] [0xC3#8]).pbm ∧ Memory.read (block 10 [] [] [0xC3#8]).pbm 1 = none) ∧
    (NoSentinelBelow (block 0 [] (List.replicate 11 5#32) []) 11 ∧
      Memory.read (block 0 [] (List.replicate 11 5#32) []).rle 11 = none) ∧
    (LegalWidth (block 4 [] [] []) ∧ Memory.read (block 4 [] [] []).rle 0 = none) ∧
    (small.wf = true ∧ AcceptedRuns (block 4 [] [0#32, 3#32] []) white [3] ∧
      Memory.read (block 4 [] [0#32, 3#32] []).rle 2 = none) := by
  refine ⟨by decide, by decide, ⟨fun j h1 h2 => ⟨5#32, by revert j; decide, by decide⟩, by decide⟩, by decide,
    by decide +kernel⟩

theorem witness_CommandsStopOnlyAtUninitialisedCells :
    exec .unpack (block 10 [] [] [0xC3#8]) = .fault (.commandReadUninitialised .pbm 1) := rfl

theorem witness_InitialisedBuffersAlwaysComplete : AllInitialised filled.params.rawCap filled.raw ∧
    AllInitialised filled.params.rleCap filled.rle ∧ AllInitialised filled.params.pbmCap filled.pbm := by decide

theorem witness_FailedCommandChangesNothingElse :
    (∃ t, (flying 6 (block 0 [] [] [])).errcode = 0#4 ∧ engineStep (flying 6 (block 0 [] [] [])) = .next t ∧
      t.errcode ≠ 0#4) ∧
    (∃ t, (flying 8 full).errcode = 0#4 ∧ engineStep (flying 8 full) = .next t ∧ t.errcode ≠ 0#4) :=
  ⟨⟨_, rfl, rfl, by decide⟩, _, rfl, rfl, by decide⟩

/-- Every command answers a next state, with success, on the full block: the frames have something to say. -/
theorem witness_command_frames : ∀ i : Instr, ∃ t, exec i full = .next t ∧ t.errcode = 0#4 := by
  intro i; cases i <;> exact ⟨_, rfl, rfl⟩

/-- The full block with other values in the RLE cells past the sentinel and in the registers that no command reads. -/
def stale : State :=
  { full with
    rle := Memory.writeList full.rle 7 [9#32, 0xFFFFFFFF#32, 9#32, 9#32], acount := 5#32, result := 9#32,
    werr := true, done := true }

/-- All seven commands beside stale cells; the scan beside another `RLE[0]` and WIDTH; a row that fails at `RLE[0]`
beside other cells after it; a row that fails at column 2 beside another column 3. -/
theorem witness_OutputsDependOnlyOnOperands :
    (∀ i : Instr, SameOperands i full stale ∧ full.errcode = 0#4 ∧ stale.errcode = 0#4 ∧
      ∃ t, exec i full = .next t) ∧
    (SameOperands .sizeof full { full with width := 3#32, rle := Memory.write full.rle 0 7#32 } ∧
      SameOperands .runsof full { full with width := 3#32, rle := Memory.write full.rle 0 7#32 }) ∧
    (SameOperands .decompress (block 4 [] [2#32, 4#32] []) (block 4 [] [2#32] []) ∧
      ∃ t, exec .decompress (block 4 [] [2#32, 4#32] []) = .next t) ∧
    (SameOperands .pack (block 4 [0#8, 1#8, 2#8, 3#8] [] []) (block 4 [0#8, 1#8, 2#8, 0#8] [] []) ∧
      ∃ t, exec .pack (block 4 [0#8, 1#8, 2#8, 3#8] [] []) = .next t) := by
  refine ⟨fun i => ⟨?_, rfl, rfl, ?_⟩, ⟨⟨rfl, ?_⟩, rfl, ?_⟩, ⟨⟨rfl, rfl, ?_⟩, _, rfl⟩, ⟨rfl, rfl, ?_⟩, _, rfl⟩
  · cases i
    case sizeof | runsof => exact ⟨rfl, by intro j _ h; revert j; decide⟩
    all_goals exact ⟨rfl, rfl, by intro j _ h; revert j; decide⟩
  · cases i <;> exact ⟨_, rfl⟩
  all_goals intro j h1 h; revert h1; revert j; decide

/-- A success and an error. -/
theorem witness_AccessCountCountsCells :
    (∃ t, full.errcode = 0#4 ∧ exec .compress full = .next t ∧ t.errcode = 0#4) ∧
    (∃ t, filled.errcode = 0#4 ∧ exec .sizeof filled = .next t ∧ t.errcode ≠ 0#4) :=
  ⟨⟨_, rfl, rfl, rfl⟩, _, rfl, rfl, by decide⟩

theorem witness_RunListIsMaximalRuns : rowTen ≠ [] ∧ [0#8] ≠ [] ∧ 8 + 1 < rowTen.length ∧ rowTen[9]? ≠ rowTen[8]? := by
  decide

theorem witness_RowEncodeDecodeInverse :
    (black = white ∨ black = black) ∧ ValidRuns 10 [2, 4, 2, 1, 1] ∧ ValidRuns 1 [1] ∧ ValidRaw 10 rowTen := by decide

theorem witness_RunValuesAlternate : (white = white ∨ white = black) ∧ [2, 4, 2, 1, 1][4]? = some 1 ∧ 0 < 1 := by
  decide

theorem witness_NegationFlipsLeadingValue : (white = white ∨ white = black) ∧ (black = white ∨ black = black) := by
  decide

theorem witness_ScanlineBitOrder : 15 < 8 * ((rowTen.length + 7) / 8) ∧ [0xC3#8, 0x40#8].length = (10 + 7) / 8 ∧
    9 < 10 := by decide

theorem witness_row_equality : 1 ≤ 10 ∧ 10 ≤ 2 ^ 28 - 2 ∧ ValidRaw 10 rowTen ∧ ValidRaw 10 (rowTen.map (1#8 - ·)) := by
  decide

theorem witness_IssueEffects : full.busy = false := by decide

/-- A busy block and an address for each target; and a transaction that is a bus error. -/
theorem witness_busy_transactions : waiting.busy = true ∧ waiting.params = small ∧
    [0x400, 0x404, 0x408, 0x40C, 0x410, 0x414, 0x418, 0x41C, 0x420, 0x424, 0x508, 0x62C, 0x700].map
      (fun addr => busDecode small addr 4) =
      [.hit .id, .hit .caps, .hit .stride, .hit .ctrl, .hit .cmd, .hit .status, .hit .width, .hit .result,
        .hit .errinfo, .hit .accessCount, .hit (.raw 2), .hit (.rle 11), .hit (.pbm 0)] ∧
    busDecode small 0x414 2 = .busErr ∧ (0x0#32).getLsbD 1 = false ∧ (0x2#32).getLsbD 1 = true := by decide +kernel

theorem witness_ReadsHaveNoSideEffect :
    (∃ u, memRead 0x418 4 7 full = .next u) ∧ (∃ u, memRead 0x424 4 7 waiting = .next u) ∧ full.busy = false :=
  ⟨⟨_, rfl⟩, ⟨_, rfl⟩, rfl⟩

/-- The last word of each region, and the first unmapped word after each. -/
theorem witness_AddressMap : 4 * 2 < small.maxWidth ∧ 11 < small.maxWidth + 2 ∧ 4 * 0 < (small.maxWidth + 7) / 8 ∧
    [0x428, 0x4FC, 0x50C, 0x630, 0x704, 0x7FC].map (fun addr => busDecode small addr 4) =
      List.replicate 6 .busErr := by decide +kernel

theorem witness_BadTransactionsFault : 0x14 < 4 * small.stride ∧ (2 : Nat) ≠ 4 ∧ 0x02 % 4 ≠ 0 ∧
    targetAt small 0x28 = none ∧ targetAt small 0x3FC = none ∧ targetAt small 0x300 ≠ none := by decide +kernel

theorem witness_IdentificationRegisters : ∃ t, step waiting = .next t := ⟨_, rfl⟩

theorem witness_StatusWriteClearsOnes : (0xA#32).getLsbD 1 = true ∧ (0xA#32).getLsbD 3 = true ∧
    (0x5#32).getLsbD 1 = false ∧ (0x5#32).getLsbD 3 = false := by decide

/-- One state a clause: an issue; a completion with an error; an acknowledge; a dropped write; a clear of WERR. -/
theorem witness_StatusBitEvents :
    view (fun t => t.busy) (step { full with program := [.wr 0x10 1#32] }) = some true ∧
    view (fun t => (t.busy, t.done, t.errcode)) (step (flying 1 (block 0 [] [] []))) = some (false, true, 2#4) ∧
    view (fun t => t.done) (step { full with done := true, program := [.wr 0x14 2#32] }) = some false ∧
    view (fun t => t.werr) (step { waiting with program := [.memWrite 0x418 4 9#32] }) = some true ∧
    view (fun t => t.werr) (step { waiting with werr := true, program := [.wr 0x14 8#32] }) = some false ∧
    view (fun t => t.errcode) (step { full with done := true, errcode := 2#4, program := [.wr 0x10 1#32] }) =
      some 0#4 ∧
    StatusConsistent full ∧ StatusConsistent waiting ∧ StatusConsistent (flying 1 (block 0 [] [] [])) ∧
    StatusConsistent { full with done := true, errcode := 2#4, program := [.wr 0x10 1#32] } := by decide

theorem witness_CtrlReadsAndWrites : (0x1#32).getLsbD 1 = false ∧ (0x3#32).getLsbD 1 = true := by decide

/-- The last words of the buffers, the RAW and PBM words with padding lanes, all their cells initialised. -/
theorem witness_buffer_words : full.busy = false ∧
    (4 * 2 < full.params.maxWidth ∧ ∀ b, b < 4 → 4 * 2 + b < full.params.maxWidth → (Memory.read full.raw (4 * 2 + b)).isSome) ∧
    (11 < full.params.maxWidth + 2 ∧ Memory.read filled.rle 11 = some 5#32) ∧
    (4 * 0 < (full.params.maxWidth + 7) / 8 ∧ ∀ b, b < 4 → 4 * 0 + b < (full.params.maxWidth + 7) / 8 →
      (Memory.read full.pbm (4 * 0 + b)).isSome) := by decide

/-- The last lane that is no padding, below it nothing uninitialised in the word; the last RLE cell. -/
theorem witness_UninitialisedHostReadFaults :
    (Memory.read (block 10 (rowTen.take 9) [] []).raw (4 * 2 + 1) = none ∧
      ∀ a, a < 1 → (Memory.read (block 10 (rowTen.take 9) [] []).raw (4 * 2 + a)).isSome) ∧
    Memory.read full.rle 11 = none ∧
    (Memory.read (block 10 [] [] [0xC3#8]).pbm (4 * 0 + 1) = none ∧
      ∀ a, a < 1 → (Memory.read (block 10 [] [] [0xC3#8]).pbm (4 * 0 + a)).isSome) := by decide

/-- A command of each kind in flight, a reserved word in flight, and none. -/
theorem witness_SoftResetEffects : (0x2#32).getLsbD 1 = true ∧ full.busy = false ∧
    (List.range 9).map (fun n => ((flying n full).busy, decode (flying n full).lcmd)) =
      [(true, .badCommand), (true, .command .runcount), (true, .command .compress), (true, .command .decompress),
        (true, .command .sizeof), (true, .command .runsof), (true, .command .pack), (true, .command .unpack),
        (true, .badCommand)] := by decide

theorem witness_InterruptOutput : (∃ t, engineStep (flying 1 full) = .next t) ∧
    (∃ t, memWrite 0x40C 4 1#32 full = .next t) ∧ (∃ t, memWrite 0x410 4 1#32 full = .next t) ∧
    (∃ t, memWrite 0x414 4 2#32 full = .next t) ∧ full.params.base = 0x400 ∧ full.busy = false :=
  ⟨⟨_, rfl⟩, ⟨_, rfl⟩, ⟨_, rfl⟩, ⟨_, rfl⟩, rfl, rfl⟩

theorem witness_OperandsFrozenInFlight : ∃ t, waiting.busy = true ∧ hostStep waiting = .next t ∧ t.busy = true :=
  ⟨_, rfl, rfl, rfl⟩

theorem witness_StrideIsLeastPowerOfTwo : Params.wf { maxWidth := 2 ^ 28 - 2, base := 2 ^ 32 } = true ∧
    max 256 (4 * (small.maxWidth + 2)) ≤ 2 ^ 8 := by decide +kernel

/-- Each invariant holds in a state that a completion leaves by a next step, and in one a HOST line leaves. -/
theorem witness_invariants :
    (MemoryCanonical (flying 2 full) ∧ StatusConsistent (flying 2 full) ∧ CountsBounded (flying 2 full) ∧
      ∃ t, step (flying 2 full) = .next t) ∧
    (MemoryCanonical waiting ∧ StatusConsistent waiting ∧ CountsBounded waiting ∧ ∃ t, step waiting = .next t) :=
  ⟨⟨by decide, by decide, by decide, _, rfl⟩, by decide, by decide, by decide, _, rfl⟩

end Sys2Proof.Tests
end

section
/-! PROOFS. The family of 10_state: what a command leaves of the buffers (R37, R38), the identification registers
(R22 to R24), CTRL (R25). -/

namespace Sys2Proof.Machine

/-! ### Reads of a register -/

/-- A read of a register that has a value gives it to the HOST and changes nothing else (20_memory R72). -/
theorem memRead_register {s : State} {off : Nat} {target : BusTarget} {v : Word} (t : Fin 16)
    (h : registerAt off = some target) (hv : readTarget target s = .value v) :
    memRead (s.params.base + off) 4 t s = .next (setScratch t v s) := by
  simp only [memRead, busDecode_register h, hv]

/-! ### CTRL (R25) -/

theorem ctrlWord_eq (s : State) : ctrlWord s = if s.ie then 1#32 else 0#32 := by
  unfold ctrlWord
  cases s.ie <;> rfl

theorem writeCtrl_setsIe {v : Word} (s : State) (h : v.getLsbD 1 = false) :
    writeCtrl v s = { s with ie := v.getLsbD 0 } :=
  if_neg (Bool.eq_false_iff.1 h)

theorem writeCtrl_softResets {v : Word} (s : State) (h : v.getLsbD 1 = true) : writeCtrl v s = softReset s :=
  if_pos h

/-- Settles O45: CTRL is a register whose word is IE, and the two values of SRST are the two arms of `writeCtrl`. -/
theorem ctrlReadsAndWrites : Obligations.CtrlReadsAndWrites := by
  intro s t v
  have hctrl : registerAt 0x0C = some .ctrl := rfl
  have hwrite : memWrite (s.params.base + 0x0C) 4 v s = .next (writeCtrl v s) := memWrite_register v hctrl
  refine ⟨?_, fun hv => ?_, fun hv => ⟨?_, softReset_ie s⟩⟩
  · rw [← ctrlWord_eq]
    exact memRead_register t hctrl rfl
  · rw [hwrite, writeCtrl_setsIe s hv]
  · rw [hwrite, writeCtrl_softResets s hv]

/-! ### No step changes the parameters (R23, R24) -/

theorem exec_params {i : Instr} {s t : State} (h : exec i s = .next t) : t.params = s.params := by
  rcases exec_next i h with ⟨e, n, _, rfl⟩ | ⟨n, count, _, ht, _⟩
  · exact completeError_params e n s
  · rw [ht]

theorem engineStep_params {s t : State} (h : engineStep s = .next t) : t.params = s.params := by
  rcases engineStep_next h with ⟨e, n, _, rfl⟩ | ⟨i, _, hi⟩
  · exact completeError_params e n s
  · exact exec_params hi

@[simp] theorem writeTarget_params (t : BusTarget) (v : Word) (s : State) :
    (writeTarget t v s).params = s.params := by
  rcases writeTarget_cases t v s with ⟨hu, _, _⟩ | ⟨_, _, hu⟩ | ⟨_, _, hu⟩
  · rw [hu]
  · rw [hu]; rfl
  · rw [hu, softReset_params]

theorem hostStep_params {s t : State} (h : hostStep s = .next t) : t.params = s.params := by
  rcases hostStep_next h with ht | ⟨addr, n, v, hw⟩ | rfl
  · rw [ht]
  · obtain ⟨target, _, rfl⟩ := memWrite_next hw
    rw [writeTarget_params, hostAdvance_params]
  · rw [powerOnReset_params, hostAdvance_params]

theorem step_params {s t : State} (h : step s = .next t) : t.params = s.params := by
  rcases step_next h with ⟨_, he⟩ | ⟨_, hh⟩ | rfl
  · exact engineStep_params he
  · exact hostStep_params hh
  · rfl

/-- Settles O41: the three offsets are registers that read the parameters, a write to them is ignored, and no
step changes the parameters. -/
theorem identificationRegisters : Obligations.IdentificationRegisters := by
  refine ⟨fun s t v => ?_, fun s t => step_params⟩
  have hid : registerAt 0x00 = some .id := rfl
  have hcaps : registerAt 0x04 = some .caps := rfl
  have hstride : registerAt 0x08 = some .stride := rfl
  exact ⟨memRead_register t hid rfl, memRead_register t hcaps rfl, memRead_register t hstride rfl,
    memWrite_register v hid, memWrite_register v hcaps, memWrite_register v hstride⟩

/-! ### How many cells a successful command stores -/

theorem storedCells_compress {s : State} {p : List Byte} (hw : LegalWidth s) (hp : ValidRaw s.width.toNat p)
    (hr : HoldsRow s.raw p) : storedCells .compress s = (rleEncode p).length := by
  simp only [storedCells, checkWidth_legal hw, CmdResult.bind_ok, checkRaw_of_holds hp hr]

theorem storedCells_pack {s : State} {p : List Byte} (hw : LegalWidth s) (hp : ValidRaw s.width.toNat p)
    (hr : HoldsRow s.raw p) : storedCells .pack s = (packRow p).length := by
  simp only [storedCells, checkWidth_legal hw, CmdResult.bind_ok, checkRaw_of_holds hp hr]

theorem storedCells_decompress {s : State} {x : Byte × List Nat} (hw : LegalWidth s)
    (hx : checkRle s s.width.toNat = .ok x) : storedCells .decompress s = (expandRuns x.1 x.2).length := by
  simp only [storedCells, checkWidth_legal hw, CmdResult.bind_ok, hx]

theorem storedCells_unpack {s : State} (hw : LegalWidth s) : storedCells .unpack s = s.width.toNat := by
  simp only [storedCells, checkWidth_legal hw]

/-! ### What a command leaves of the buffers (R37, R38) -/

/-- A row written from cell 0 keeps the cells past it. -/
theorem keepsFrom_writeList {n bound : Nat} (m : List (Nat × BitVec n)) {row : List (BitVec n)}
    (h : row.length ≤ bound) : KeepsFrom m (Memory.writeList m 0 row) bound := by
  intro j hj
  rw [Memory.read_writeList_zero, if_neg (by omega)]

/-- What `Obligations.CommandBufferFrame` says of one completion. -/
def BufferFrame (i : Instr) (s t : State) : Prop :=
  KeepsFrom s.raw t.raw (storedRaw i s) ∧ KeepsFrom s.rle t.rle (storedRle i s) ∧
    KeepsFrom s.pbm t.pbm (storedPbm i s) ∧
    (i ≠ .decompress → i ≠ .unpack → t.raw = s.raw) ∧ (i ≠ .compress → t.rle = s.rle) ∧
    (i ≠ .pack → t.pbm = s.pbm)

theorem BufferFrame.of_same {i : Instr} {s t : State} (hraw : t.raw = s.raw) (hrle : t.rle = s.rle)
    (hpbm : t.pbm = s.pbm) : BufferFrame i s t := by
  refine ⟨?_, ?_, ?_, fun _ _ => hraw, fun _ => hrle, fun _ => hpbm⟩
  · rw [hraw]; exact fun _ _ => rfl
  · rw [hrle]; exact fun _ _ => rfl
  · rw [hpbm]; exact fun _ _ => rfl

/-- A command error leaves every cell (60_exceptions R192). -/
theorem BufferFrame.of_error (i : Instr) (e : CmdError) (n : Nat) (s : State) :
    BufferFrame i s (completeError e n s) :=
  .of_same rfl rfl rfl

/-- A command that only counts leaves every cell. -/
theorem BufferFrame.of_count (i : Instr) (count n : Nat) (s : State) :
    BufferFrame i s (completeSuccess count (commitCount n s)) :=
  .of_same rfl rfl rfl

theorem BufferFrame.of_raw {i : Instr} {row : List Byte} (count n : Nat) {s : State}
    (hi : i = .decompress ∨ i = .unpack) (hrow : row.length ≤ storedRaw i s) :
    BufferFrame i s (completeSuccess count (commitRaw row n s)) :=
  ⟨keepsFrom_writeList s.raw hrow, fun _ _ => rfl, fun _ _ => rfl,
    fun h1 h2 => absurd hi (not_or.2 ⟨h1, h2⟩), fun _ => rfl, fun _ => rfl⟩

theorem BufferFrame.of_rle {row : List Word} (count n : Nat) {s : State}
    (hrow : row.length ≤ storedRle .compress s) :
    BufferFrame .compress s (completeSuccess count (commitRle row n s)) :=
  ⟨fun _ _ => rfl, keepsFrom_writeList s.rle hrow, fun _ _ => rfl,
    fun _ _ => rfl, fun h => absurd rfl h, fun _ => rfl⟩

theorem BufferFrame.of_pbm {row : List Byte} (count n : Nat) {s : State}
    (hrow : row.length ≤ storedPbm .pack s) :
    BufferFrame .pack s (completeSuccess count (commitPbm row n s)) :=
  ⟨fun _ _ => rfl, fun _ _ => rfl, keepsFrom_writeList s.pbm hrow,
    fun _ _ => rfl, fun _ => rfl, fun h => absurd rfl h⟩

/-- Settles O23, command by command: an error or a count stores no cell, and a commit stores from cell 0 a row of
exactly the length that the command's checks give. -/
theorem commandBufferFrame : Obligations.CommandBufferFrame := by
  intro i s t h
  change BufferFrame i s t
  cases i with
  | runcount =>
    rcases execRuncount_next h with ⟨e, n, _, _, rfl⟩ | ⟨row, _, _, _, rfl⟩
    · exact .of_error _ e n s
    · exact .of_count _ _ _ s
  | compress =>
    rcases execCompress_next h with ⟨e, n, _, _, rfl⟩ | ⟨row, hw, hp, hr, rfl⟩
    · exact .of_error _ e n s
    · exact .of_rle _ _ (storedCells_compress hw hp hr).ge
  | decompress =>
    rcases execDecompress_next h with ⟨e, n, _, _, rfl⟩ | ⟨v, runs, hw, _, _, _, hx, rfl⟩
    · exact .of_error _ e n s
    · exact .of_raw _ _ (.inl rfl) (storedCells_decompress hw hx).ge
  | sizeof =>
    rcases execSizeof_next h with rfl | ⟨k, _, _, _, rfl⟩
    · exact .of_error _ _ _ s
    · exact .of_count _ _ _ s
  | runsof =>
    rcases execRunsof_next h with rfl | ⟨k, _, _, _, rfl⟩
    · exact .of_error _ _ _ s
    · exact .of_count _ _ _ s
  | pack =>
    rcases execPack_next h with ⟨e, n, _, _, rfl⟩ | ⟨row, hw, hp, hr, rfl⟩
    · exact .of_error _ e n s
    · exact .of_pbm _ _ (storedCells_pack hw hp hr).ge
  | unpack =>
    rcases execUnpack_next h with ⟨e, n, _, _, rfl⟩ | ⟨bytes, hw, _, _, rfl⟩
    · exact .of_error _ e n s
    · refine .of_raw _ _ (.inr rfl) ?_
      calc (unpackRow bytes s.width.toNat).length = s.width.toNat := unpackRow_length bytes _
        _ ≤ storedCells .unpack s := (storedCells_unpack hw).ge

end Sys2Proof.Machine
end

section
/-! PROOFS. The family of 20_memory: the address map (R61, R63) and the words of the three buffer regions (R66 to
R69). -/

namespace Sys2Proof.Machine

/-! ### Where an address goes (R61, R63) -/

/-- The stride is a whole number of words, so a region's words are aligned. -/
theorem stride_mod_four (p : Params) : p.stride % 4 = 0 := by
  have hexp : 8 ≤ Nat.log2 (max 256 (4 * (p.maxWidth + 2)) - 1) + 1 :=
    (Nat.pow_le_pow_iff_right Nat.one_lt_two).1 (stride_ge_256 p)
  exact Nat.mod_eq_zero_of_dvd (dvd_trans (by decide : 4 ∣ 2 ^ 8) (Nat.pow_dvd_pow 2 hexp))

theorem le_ceil4 (n : Nat) : n ≤ ceil4 n := by
  unfold ceil4
  omega

theorem registerAt_past_last {off : Nat} (h : 0x28 ≤ off) : registerAt off = none := by
  cases hr : registerAt off with
  | none => rfl
  | some t =>
    unfold registerAt at hr
    split at hr <;> cases hr <;> omega

/-- A word of the RAW region is its target: the region lies above the registers and below the region of RLE. -/
theorem targetAt_rawWord {p : Params} {m : Nat} (h : 4 * m < p.rawCap) :
    targetAt p (p.stride + 4 * m) = some (.raw m) := by
  have hs := stride_ge_256 p
  have hcap := le_ceil4 p.rawCap
  unfold targetAt
  rw [if_neg (by omega), if_pos (by omega), Nat.add_sub_cancel_left, Nat.mul_div_cancel_left m (by decide)]

theorem targetAt_rleWord {p : Params} {i : Nat} (h : i < p.rleCap) :
    targetAt p (2 * p.stride + 4 * i) = some (.rle i) := by
  have hs := stride_ge_256 p
  obtain ⟨-, hraw, -⟩ := regions_fit p
  unfold targetAt
  rw [if_neg (by omega), if_neg (by omega), if_pos (by omega), Nat.add_sub_cancel_left,
    Nat.mul_div_cancel_left i (by decide)]

theorem targetAt_pbmWord {p : Params} {m : Nat} (h : 4 * m < p.pbmCap) :
    targetAt p (3 * p.stride + 4 * m) = some (.pbm m) := by
  have hs := stride_ge_256 p
  obtain ⟨hrle, hraw, -⟩ := regions_fit p
  have hcap := le_ceil4 p.pbmCap
  unfold targetAt
  rw [if_neg (by omega), if_neg (by omega), if_neg (by omega), if_pos (by omega), Nat.add_sub_cancel_left,
    Nat.mul_div_cancel_left m (by decide)]

/-- An offset past the last register and in no region has no target. -/
theorem targetAt_unmapped {p : Params} {off : Nat} (hreg : 0x28 ≤ off)
    (hraw : ¬(p.stride ≤ off ∧ off < p.stride + ceil4 p.rawCap))
    (hrle : ¬(2 * p.stride ≤ off ∧ off < 2 * p.stride + 4 * p.rleCap))
    (hpbm : ¬(3 * p.stride ≤ off ∧ off < 3 * p.stride + ceil4 p.pbmCap)) : targetAt p off = none := by
  unfold targetAt
  rw [registerAt_past_last hreg, if_neg hraw, if_neg hrle, if_neg hpbm, ite_self]

/-- An aligned offset inside the window reaches its target. -/
theorem busDecode_target {p : Params} {off : Nat} {t : BusTarget} (hin : off < 4 * p.stride) (ha : off % 4 = 0)
    (ht : targetAt p off = some t) : busDecode p (p.base + off) 4 = .hit t := by
  rw [busDecode_aligned hin ha, ht]

/-- A transaction of any size to an offset with no target is a bus error. -/
theorem busDecode_unmapped {p : Params} {off : Nat} (n : Nat) (hin : off < 4 * p.stride)
    (ht : targetAt p off = none) : busDecode p (p.base + off) n = .busErr := by
  unfold busDecode
  rw [if_neg (by omega), Nat.add_sub_cancel_left, ht, ite_self, ite_self]

theorem busDecode_rawWord {p : Params} {m : Nat} (h : 4 * m < p.rawCap) :
    busDecode p (p.base + p.stride + 4 * m) 4 = .hit (.raw m) := by
  have hs := stride_mod_four p
  obtain ⟨-, hfit, -⟩ := regions_fit p
  have hcap := le_ceil4 p.rawCap
  rw [Nat.add_assoc]
  exact busDecode_target (by omega) (by omega) (targetAt_rawWord h)

theorem busDecode_rleWord {p : Params} {i : Nat} (h : i < p.rleCap) :
    busDecode p (p.base + 2 * p.stride + 4 * i) 4 = .hit (.rle i) := by
  have hs := stride_mod_four p
  obtain ⟨hfit, -, -⟩ := regions_fit p
  rw [Nat.add_assoc]
  exact busDecode_target (by omega) (by omega) (targetAt_rleWord h)

theorem busDecode_pbmWord {p : Params} {m : Nat} (h : 4 * m < p.pbmCap) :
    busDecode p (p.base + 3 * p.stride + 4 * m) 4 = .hit (.pbm m) := by
  have hs := stride_mod_four p
  obtain ⟨-, -, hfit⟩ := regions_fit p
  have hcap := le_ceil4 p.pbmCap
  rw [Nat.add_assoc]
  exact busDecode_target (by omega) (by omega) (targetAt_pbmWord h)

/-- Settles O39: the ten registers are the rows of `registerAt`, a word of a region is aligned and reaches its
target, and any other offset of the window has none. -/
theorem addressMap : Obligations.AddressMap := by
  intro p
  refine ⟨fun off target hmem => busDecode_register ?_, fun m => busDecode_rawWord, fun i => busDecode_rleWord,
    fun m => busDecode_pbmWord, fun off n hin hreg hraw hrle hpbm => ?_, (regions_fit p).1, ?_⟩
  · simp only [List.mem_cons, List.not_mem_nil, or_false, Prod.mk.injEq] at hmem
    rcases hmem with ⟨rfl, rfl⟩ | ⟨rfl, rfl⟩ | ⟨rfl, rfl⟩ | ⟨rfl, rfl⟩ | ⟨rfl, rfl⟩ | ⟨rfl, rfl⟩ | ⟨rfl, rfl⟩ |
      ⟨rfl, rfl⟩ | ⟨rfl, rfl⟩ | ⟨rfl, rfl⟩ <;> rfl
  · exact busDecode_unmapped n hin (targetAt_unmapped hreg hraw hrle hpbm)
  · simp only [Params.rawCap, Params.rleCap]
    omega

/-! ### A transaction that reaches its target -/

theorem memWrite_hit {s : State} {addr n : Nat} {target : BusTarget} (v : Word)
    (h : busDecode s.params addr n = .hit target) : memWrite addr n v s = .next (writeTarget target v s) := by
  simp only [memWrite, h]

theorem memRead_hit {s : State} {addr n : Nat} {target : BusTarget} {v : Word} (t : Fin 16)
    (h : busDecode s.params addr n = .hit target) (hv : readTarget target s = .value v) :
    memRead addr n t s = .next (setScratch t v s) := by
  simp only [memRead, h, hv]

/-! ### A buffer word while BUSY = 0 -/

section
variable {s : State} (hidle : s.busy = false)
include hidle

theorem writeTarget_raw_idle (m : Nat) (v : Word) :
    writeTarget (.raw m) v s = { s with raw := storeLanes s.params.rawCap s.raw m v } :=
  writeIdle_idle hidle

theorem writeTarget_rle_idle (i : Nat) (v : Word) :
    writeTarget (.rle i) v s = { s with rle := Memory.write s.rle i v } :=
  writeIdle_idle hidle

theorem writeTarget_pbm_idle (m : Nat) (v : Word) :
    writeTarget (.pbm m) v s = { s with pbm := storeLanes s.params.pbmCap s.pbm m v } :=
  writeIdle_idle hidle

theorem readTarget_raw_idle {m : Nat} {x : Word} (h : laneWord .raw s.params.rawCap s.raw m = .ok x) :
    readTarget (.raw m) s = .value x := by
  simp only [readTarget, hidle, h, Bool.false_eq_true, if_false, BusRead.ofExcept]

theorem readTarget_rle_idle {i : Nat} {x : Word} (h : Memory.read s.rle i = some x) :
    readTarget (.rle i) s = .value x := by
  simp only [readTarget, hidle, elementWord, h, Bool.false_eq_true, if_false, BusRead.ofExcept]

theorem readTarget_pbm_idle {m : Nat} {x : Word} (h : laneWord .pbm s.params.pbmCap s.pbm m = .ok x) :
    readTarget (.pbm m) s = .value x := by
  simp only [readTarget, hidle, h, Bool.false_eq_true, if_false, BusRead.ofExcept]

end

/-- Settles O48: the target of the word is the cell itself, read and written whole. -/
theorem rleWordIsOneCell : Obligations.RleWordIsOneCell := by
  intro s i hidle hi
  have hd : busDecode s.params (s.params.base + 2 * s.params.stride + 4 * i) 4 = .hit (.rle i) :=
    busDecode_rleWord hi
  refine ⟨fun v => ⟨Memory.write s.rle i v, ?_, Memory.read_write_self s.rle i v,
    fun j hj => Memory.read_write_other s.rle v hj⟩, fun t x hx => memRead_hit t hd (readTarget_rle_idle hidle hx)⟩
  rw [memWrite_hit v hd, writeTarget_rle_idle hidle]

/-! ### Lanes (R66, R67, R69) -/

/-- A write stores lane `b` of the word into its cell, where that cell exists. -/
theorem read_storeLanes_lane {cap m b : Nat} (cells : List Host.Cell) (v : Word) (hb : b < 4)
    (hcap : 4 * m + b < cap) :
    Memory.read (storeLanes cap cells m v) (4 * m + b) = some (v.extractLsb' (8 * b) 8) := by
  simp only [storeLanes, read_storeLane]
  obtain rfl | rfl | rfl | rfl : b = 0 ∨ b = 1 ∨ b = 2 ∨ b = 3 := by omega
  · rw [if_neg (by omega), if_neg (by omega), if_neg (by omega), if_pos (by omega)]
    rfl
  · rw [if_neg (by omega), if_neg (by omega), if_pos (by omega)]
    rfl
  · rw [if_neg (by omega), if_pos (by omega)]
    rfl
  · rw [if_pos (by omega)]
    rfl

/-- A write changes no cell but the word's own that exist. -/
theorem read_storeLanes_other {cap m j : Nat} (cells : List Host.Cell) (v : Word)
    (h : ¬(4 * m ≤ j ∧ j < 4 * m + 4 ∧ j < cap)) :
    Memory.read (storeLanes cap cells m v) j = Memory.read cells j := by
  simp only [storeLanes, read_storeLane]
  rw [if_neg (by omega), if_neg (by omega), if_neg (by omega), if_neg (by omega)]

theorem laneByte_cell {cap index : Nat} (cells : List Host.Cell) (h : index < cap) :
    laneByte cap cells index = Memory.read cells index :=
  if_neg (by omega)

theorem laneByte_padding {cap index : Nat} (cells : List Host.Cell) (h : cap ≤ index) :
    laneByte cap cells index = some 0x00#8 :=
  if_pos h

/-- A lane has a byte where its cell, if it exists, is initialised. -/
theorem exists_laneByte {cap index : Nat} {cells : List Host.Cell}
    (h : index < cap → (Memory.read cells index).isSome) : ∃ x, laneByte cap cells index = some x := by
  by_cases hc : index < cap
  · rw [laneByte_cell cells hc]
    exact Option.isSome_iff_exists.1 (h hc)
  · exact ⟨_, laneByte_padding cells (by omega)⟩

/-- The four bytes of a word by lane: byte 0 is the least significant. -/
theorem extractLsb'_fourBytes (b0 b1 b2 b3 : Byte) :
    (b3 ++ b2 ++ b1 ++ b0).extractLsb' 0 8 = b0 ∧ (b3 ++ b2 ++ b1 ++ b0).extractLsb' 8 8 = b1 ∧
      (b3 ++ b2 ++ b1 ++ b0).extractLsb' 16 8 = b2 ∧ (b3 ++ b2 ++ b1 ++ b0).extractLsb' 24 8 = b3 := by
  refine ⟨BitVec.extractLsb'_append_eq_right, ?_, ?_, ?_⟩
  · rw [BitVec.extractLsb'_append_eq_of_le (by decide)]
    exact BitVec.extractLsb'_append_eq_right
  · rw [BitVec.extractLsb'_append_eq_of_le (by decide), BitVec.extractLsb'_append_eq_of_le (by decide)]
    exact BitVec.extractLsb'_append_eq_right
  · rw [BitVec.extractLsb'_append_eq_of_le (by decide), BitVec.extractLsb'_append_eq_of_le (by decide)]
    exact BitVec.extractLsb'_append_eq_left

/-- A word whose existing cells are all initialised reads as a word of its lanes' bytes. -/
theorem laneWord_of_initialised {cap m : Nat} {cells : List Host.Cell} (buf : Buffer)
    (h : ∀ b, b < 4 → 4 * m + b < cap → (Memory.read cells (4 * m + b)).isSome) :
    ∃ x, laneWord buf cap cells m = .ok x ∧
      ∀ b, b < 4 → laneByte cap cells (4 * m + b) = some (x.extractLsb' (8 * b) 8) := by
  obtain ⟨b0, h0⟩ := exists_laneByte (h 0 (by decide))
  obtain ⟨b1, h1⟩ := exists_laneByte (h 1 (by decide))
  obtain ⟨b2, h2⟩ := exists_laneByte (h 2 (by decide))
  obtain ⟨b3, h3⟩ := exists_laneByte (h 3 (by decide))
  obtain ⟨e0, e1, e2, e3⟩ := extractLsb'_fourBytes b0 b1 b2 b3
  refine ⟨b3 ++ b2 ++ b1 ++ b0, ?_, fun b hb => ?_⟩
  · rw [Nat.add_zero] at h0
    simp only [laneWord, h0, h1, h2, h3]
  · obtain rfl | rfl | rfl | rfl : b = 0 ∨ b = 1 ∨ b = 2 ∨ b = 3 := by omega
    · rw [h0, e0]
    · rw [h1, e1]
    · rw [h2, e2]
    · rw [h3, e3]

/-- Such a word has the existing cells in their lanes and 0 in the padding lanes (R67). -/
theorem laneWord_lanes {cap m : Nat} {cells : List Host.Cell} (buf : Buffer)
    (h : ∀ b, b < 4 → 4 * m + b < cap → (Memory.read cells (4 * m + b)).isSome) :
    ∃ x, laneWord buf cap cells m = .ok x ∧
      (∀ b, b < 4 → 4 * m + b < cap → Memory.read cells (4 * m + b) = some (x.extractLsb' (8 * b) 8)) ∧
      ∀ b, b < 4 → cap ≤ 4 * m + b → x.extractLsb' (8 * b) 8 = 0x00#8 := by
  obtain ⟨x, hx, hlane⟩ := laneWord_of_initialised buf h
  refine ⟨x, hx, fun b hb hc => ?_, fun b hb hc => ?_⟩
  · rw [← laneByte_cell cells hc, hlane b hb]
  · exact Option.some.inj ((hlane b hb).symm.trans (laneByte_padding cells hc))

/-- Settles O47: the lanes of a RAW word are those of `storeLanes` and `laneWord` at the capacity MAX_WIDTH. -/
theorem rawWordLanes : Obligations.RawWordLanes := by
  intro s m hidle hm
  have hd : busDecode s.params (s.params.base + s.params.stride + 4 * m) 4 = .hit (.raw m) := busDecode_rawWord hm
  refine ⟨fun v => ⟨storeLanes s.params.rawCap s.raw m v, ?_, fun b => read_storeLanes_lane s.raw v,
    fun j => read_storeLanes_other s.raw v⟩, fun t hinit => ?_⟩
  · rw [memWrite_hit v hd, writeTarget_raw_idle hidle]
  · obtain ⟨x, hx, hlanes⟩ := laneWord_lanes (cap := s.params.rawCap) .raw hinit
    exact ⟨x, memRead_hit t hd (readTarget_raw_idle hidle hx), hlanes⟩

/-- Settles O49: the lanes of a PBM word are those of `storeLanes` and `laneWord` at the capacity PBM_CAP. -/
theorem pbmWordLanes : Obligations.PbmWordLanes := by
  intro s m hidle hm
  have hd : busDecode s.params (s.params.base + 3 * s.params.stride + 4 * m) 4 = .hit (.pbm m) :=
    busDecode_pbmWord hm
  refine ⟨fun v => ⟨storeLanes s.params.pbmCap s.pbm m v, ?_, fun b => read_storeLanes_lane s.pbm v,
    fun j => read_storeLanes_other s.pbm v⟩, fun t hinit => ?_⟩
  · rw [memWrite_hit v hd, writeTarget_pbm_idle hidle]
  · obtain ⟨x, hx, hlanes⟩ := laneWord_lanes (cap := s.params.pbmCap) .pbm hinit
    exact ⟨x, memRead_hit t hd (readTarget_pbm_idle hidle hx), hlanes⟩

end Sys2Proof.Machine
end

section
/-! PROOFS. The family of 30_encoding: decoding as a case analysis of the word's number (R93, R94), and what a
reserved word does (R95). -/

namespace Sys2Proof.Machine

/-! ### The fields of a command word (R90) -/

theorem rsvField_toNat (w : Word) : (rsvField w).toNat = w.toNat / 16 := by
  have hw := w.isLt
  simp only [rsvField, BitVec.extractLsb_toNat, Nat.shiftRight_eq_div_pow]
  omega

theorem opField_toNat (w : Word) : (opField w).toNat = w.toNat % 16 := by
  simp only [opField, BitVec.extractLsb_toNat, Nat.shiftRight_zero]

theorem rsvField_eq_zero_iff {w : Word} : rsvField w = 0#28 ↔ w.toNat < 16 := by
  rw [← BitVec.toNat_inj, rsvField_toNat]
  exact Nat.div_eq_zero_iff_lt (by decide)

/-! ### The opcode map (R93) -/

theorem decodeOp_encode (i : Instr) : decodeOp (encode i).toNat = .command i := by
  cases i <;> rfl

theorem decodeOp_eq_command_iff {n : Nat} {i : Instr} : decodeOp n = .command i ↔ n = (encode i).toNat := by
  constructor
  · intro h
    unfold decodeOp at h
    split at h <;> cases h <;> rfl
  · rintro rfl
    exact decodeOp_encode i

/-- An OP is reserved when it is outside the seven rows of the map. -/
theorem decodeOp_eq_badCommand_iff {n : Nat} : decodeOp n = .badCommand ↔ ¬(1 ≤ n ∧ n ≤ 7) := by
  constructor
  · rintro h ⟨hlo, hhi⟩
    interval_cases n <;> cases h
  · intro h
    unfold decodeOp
    split
    case h_8 => rfl
    all_goals omega

/-! ### Decoding (R94) -/

/-- RSV and OP together decide as the opcode map does on the number of the whole word: with RSV not 0 that number is
16 or more, and no row of the map. -/
theorem decode_eq_decodeOp (w : Word) : decode w = decodeOp w.toNat := by
  unfold decode
  split
  · next hrsv =>
    rw [ne_eq, rsvField_eq_zero_iff] at hrsv
    exact (decodeOp_eq_badCommand_iff.2 (by omega)).symm
  · next hrsv =>
    rw [not_not, rsvField_eq_zero_iff] at hrsv
    rw [opField_toNat, Nat.mod_eq_of_lt hrsv]

theorem decode_eq_command_iff {w : Word} {i : Instr} : decode w = .command i ↔ w = encode i := by
  rw [decode_eq_decodeOp, decodeOp_eq_command_iff, BitVec.toNat_inj]

theorem decode_eq_badCommand_iff {w : Word} : decode w = .badCommand ↔ ¬(1 ≤ w.toNat ∧ w.toNat ≤ 7) := by
  rw [decode_eq_decodeOp, decodeOp_eq_badCommand_iff]

/-- The decoder is total with two kinds of answer. -/
theorem exists_decode_eq_command_iff {w : Word} : (∃ i, decode w = .command i) ↔ decode w ≠ .badCommand := by
  cases decode w with
  | command i => exact iff_of_true ⟨i, rfl⟩ (by rintro ⟨⟩)
  | badCommand => exact iff_of_false (by rintro ⟨i, ⟨⟩⟩) (fun h => h rfl)

/-- Settles O1: the seven words by evaluation, and every other clause from the opcode map on the word's number. -/
theorem decodeExactlyTheSevenWords : Obligations.DecodeExactlyTheSevenWords := by
  refine ⟨⟨rfl, rfl, rfl, rfl, rfl, rfl, rfl⟩, fun w i => decode_eq_command_iff,
    fun w => decode_eq_badCommand_iff, fun w => ?_⟩
  rw [exists_decode_eq_command_iff, ne_eq, decode_eq_badCommand_iff, not_not]

/-! ### Reserved words (R95) -/

/-- A word is reserved by its RSV or by its OP. -/
theorem decode_eq_badCommand_iff_fields {w : Word} :
    decode w = .badCommand ↔ rsvField w ≠ 0#28 ∨ (opField w).toNat = 0 ∨ 8 ≤ (opField w).toNat := by
  unfold decode
  split
  · next hrsv => exact iff_of_true rfl (.inl hrsv)
  · next hrsv =>
    rw [decodeOp_eq_badCommand_iff, or_iff_right hrsv]
    omega

/-- A write of any word to CMD while BUSY = 0 issues it (60_exceptions R204). -/
theorem memWrite_cmd_idle {s : State} (v : Word) (hidle : s.busy = false) :
    memWrite (s.params.base + 0x10) 4 v s = .next (issue v s) := by
  have hcmd : registerAt 0x10 = some .cmd := rfl
  rw [memWrite_register v hcmd]
  exact congrArg _ (writeIdle_idle hidle)

theorem engineStep_badCommand {s : State} (h : decode s.lcmd = .badCommand) :
    engineStep s = .next (completeError .badCommand 0 s) := by
  simp only [engineStep, h]

/-- Settles O4: the two fields of the word say when it is reserved; CMD takes any word; and the completion of a
reserved word is the BAD_COMMAND error, which runs no command. -/
theorem reservedWordCompletesBadCommand : Obligations.ReservedWordCompletesBadCommand := by
  refine ⟨fun v => decode_eq_badCommand_iff_fields, fun v hv => ⟨fun s hidle => ?_, fun s hlcmd => ?_⟩⟩
  · exact ⟨issue v s, memWrite_cmd_idle v hidle, issue_lcmd v s, issue_busy v s⟩
  · exact engineStep_badCommand (hlcmd ▸ hv)

end Sys2Proof.Machine
end

section
/-! PROOFS. The family of 40_rle_codec: rows as data (R111, R115, R123, R154), the row check (R119, R122), the five
commands of the row codec (R130 to R148), the laws of two of them (R150 to R152), and what a command's outputs depend
on (R153). -/

namespace Sys2Proof.Machine

/-! ### The value of a run (R111, R154) -/

/-- Between legal pixels `1 - v` is `v` with bit 0 flipped. -/
theorem flip_eq_xor {v : Byte} (hv : v = white ∨ v = black) : 1#8 - v = v ^^^ 1#8 := by
  rcases hv with rfl | rfl <;> decide

theorem flip_ne_self {v : Byte} (hv : v = white ∨ v = black) : 1#8 - v ≠ v := by
  rcases hv with rfl | rfl <;> decide

/-- There are only two pixel values. -/
theorem eq_flip_of_ne {p q : Byte} (hp : p = white ∨ p = black) (hq : q = white ∨ q = black) (h : q ≠ p) :
    q = 1#8 - p := by
  rcases hp with rfl | rfl <;> rcases hq with rfl | rfl
  · exact absurd rfl h
  · decide
  · decide
  · exact absurd rfl h

/-- One more flip is one more run. -/
theorem xor_one_xor_parity (v : Byte) (i : Nat) :
    v ^^^ 1#8 ^^^ BitVec.ofNat 8 (i % 2) = v ^^^ BitVec.ofNat 8 ((i + 1) % 2) := by
  rw [BitVec.xor_assoc]
  rcases Nat.mod_two_eq_zero_or_one i with h | h
  · rw [h, show (i + 1) % 2 = 1 by omega]
    rfl
  · rw [h, show (i + 1) % 2 = 0 by omega]
    rfl

/-- Settles O27, by induction on the runs: past the first run the rest is a row that begins with the flipped value. -/
theorem runValuesAlternate : Obligations.RunValuesAlternate := by
  intro v runs i r c hv hi hc
  induction runs generalizing v i with
  | nil => cases hi
  | cons q rest ih =>
    rw [expandRuns]
    cases i with
    | zero =>
      obtain rfl : q = r := Option.some.inj hi
      rw [List.take_zero, List.sum_nil, Nat.zero_add, List.getElem?_append_left (by simpa using hc),
        List.getElem?_replicate_of_lt hc, Nat.zero_mod, BitVec.xor_zero]
    | succ i =>
      have hrest := ih (1#8 - v) i (flip_legal hv) hi
      rw [List.take_succ_cons, List.sum_cons, List.getElem?_append_right (by simp; omega), List.length_replicate,
        show q + (rest.take i).sum + c - q = (rest.take i).sum + c by omega, hrest, flip_eq_xor hv,
        xor_one_xor_parity]

/-- Flipping the leading value complements the decoded row. -/
theorem expandRuns_flip {v : Byte} (hv : v = white ∨ v = black) (runs : List Nat) :
    expandRuns (v ^^^ 1#8) runs = (expandRuns v runs).map (· ^^^ 1#8) := by
  induction runs generalizing v with
  | nil => rfl
  | cons r rest ih =>
    have hv' := flip_legal hv
    have hrest := ih hv'
    rw [← flip_eq_xor hv'] at hrest
    rw [← flip_eq_xor hv, expandRuns, expandRuns, hrest, List.map_append, List.map_replicate, flip_eq_xor hv]

/-- Settles O28: the flipped value is the other pixel value, and the runs stay. -/
theorem negationFlipsLeadingValue : Obligations.NegationFlipsLeadingValue := by
  intro v runs hv
  refine ⟨?_, ?_, expandRuns_flip hv runs⟩
  · rw [← flip_eq_xor hv]
    exact flip_legal hv
  · have hlead : (v ^^^ 1#8).setWidth 32 = v.setWidth 32 ^^^ 1#32 := BitVec.setWidth_xor
    rw [rleRow, rleRow, hlead, List.tail_cons]

/-! ### Where a run begins (R115) -/

/-- A run after the first begins at column `n`: `n` is the sum of the runs before it. -/
def RunBegins (runs : List Nat) (n : Nat) : Prop :=
  ∃ i, 1 ≤ i ∧ i < runs.length ∧ (runs.take i).sum = n

theorem not_runBegins_singleton (r n : Nat) : ¬RunBegins [r] n := by
  rintro ⟨i, h1, h2, -⟩
  rw [List.length_singleton] at h2
  omega

/-- The second run begins after the first; a later one where it begins in the rest. -/
theorem runBegins_cons {r n : Nat} {rest : List Nat} (hne : rest ≠ []) :
    RunBegins (r :: rest) n ↔ n = r ∨ ∃ m, RunBegins rest m ∧ n = r + m := by
  constructor
  · rintro ⟨i, h1, h2, rfl⟩
    obtain ⟨i, rfl⟩ := Nat.exists_eq_add_of_le' h1
    rw [List.take_succ_cons, List.sum_cons]
    cases i with
    | zero => exact .inl rfl
    | succ i => exact .inr ⟨_, ⟨i + 1, by omega, by simpa using h2, rfl⟩, rfl⟩
  · rintro (rfl | ⟨m, ⟨i, h1, h2, rfl⟩, rfl⟩)
    · exact ⟨1, le_refl 1, by simpa using List.length_pos_of_ne_nil hne, by simp⟩
    · exact ⟨i + 1, by omega, by simpa using h2, by simp⟩

/-- No run begins inside the run that is `len` long already. -/
theorem le_of_runBegins_runsFrom {p : Byte} {len n : Nat} {rest : List Byte}
    (h : RunBegins (runsFrom p len rest) n) : len ≤ n := by
  induction rest generalizing p len with
  | nil => exact absurd h (not_runBegins_singleton len n)
  | cons q rest ih =>
    unfold runsFrom at h
    split at h
    · exact Nat.le_of_succ_le (ih h)
    · rcases (runBegins_cons (runsFrom_ne_nil q 1 rest)).1 h with rfl | ⟨m, -, rfl⟩ <;> omega

/-- `k` columns past a run's first `len` pixels a new run begins exactly where the pixel changes. -/
theorem runBegins_runsFrom {p : Byte} {len k : Nat} {rest : List Byte} (hk : k < rest.length) :
    RunBegins (runsFrom p len rest) (len + k) ↔ (p :: rest)[k + 1]? ≠ (p :: rest)[k]? := by
  induction rest generalizing p len k with
  | nil => cases hk
  | cons q rest ih =>
    unfold runsFrom
    split
    · next hqp =>
      subst hqp
      cases k with
      | zero => exact iff_of_false (fun h => absurd (le_of_runBegins_runsFrom h) (by omega)) (by simp)
      | succ k =>
        rw [show len + (k + 1) = len + 1 + k by omega, ih (by simpa using hk)]
        rfl
    · next hqp =>
      rw [runBegins_cons (runsFrom_ne_nil q 1 rest)]
      cases k with
      | zero => exact iff_of_true (.inl rfl) (by simpa using hqp)
      | succ k =>
        have hrest := ih (p := q) (len := 1) (k := k) (by simpa using hk)
        rw [show (p :: q :: rest)[k + 1 + 1]? = (q :: rest)[k + 1]? from rfl,
          show (p :: q :: rest)[k + 1]? = (q :: rest)[k]? from rfl, ← hrest]
        constructor
        · rintro (h | ⟨m, hm, h⟩)
          · omega
          · rwa [show 1 + k = m by omega]
        · exact fun h => .inr ⟨1 + k, h, by omega⟩

theorem runList_sum {p : List Byte} (h : p ≠ []) : (runList p).sum = p.length := by
  cases p with
  | nil => exact absurd rfl h
  | cons q rest => rw [runList, runsFrom_sum, List.length_cons, Nat.add_comm]

/-- The runs of a row of at least one pixel are valid runs of its width. -/
theorem validRuns_runList {p : List Byte} (h : p ≠ []) : ValidRuns p.length (runList p) := by
  refine ⟨?_, fun r hr => ⟨?_, ?_⟩, runList_sum h⟩
  · cases p with
    | nil => exact absurd rfl h
    | cons q rest => exact runsFrom_ne_nil q 1 rest
  · cases p with
    | nil => exact absurd rfl h
    | cons q rest => exact runsFrom_pos q rest (le_refl 1) r hr
  · rw [← runList_sum h]
    exact le_sum_of_mem hr

/-- Settles O25: the bounds are those of valid runs, and where a run begins is `runBegins_runsFrom` in a run that is
one pixel long so far. -/
theorem runListIsMaximalRuns : Obligations.RunListIsMaximalRuns := by
  intro p hp
  obtain ⟨hne, hbounds, hsum⟩ := validRuns_runList hp
  refine ⟨hbounds, hsum, List.length_pos_of_ne_nil hne, runList_length_le p, fun c hc => ?_⟩
  cases p with
  | nil => exact absurd rfl hp
  | cons q rest =>
    rw [← runBegins_runsFrom (p := q) (len := 1) (by simpa using hc), Nat.add_comm 1 c]
    rfl

/-! ### Encoding and decoding a row (R116, R120, R123) -/

/-- Pixels of the run's own value make it longer. -/
theorem runsFrom_replicate (v : Byte) (len n : Nat) (rest : List Byte) :
    runsFrom v len (List.replicate n v ++ rest) = runsFrom v (len + n) rest := by
  induction n generalizing len with
  | zero => rfl
  | succ n ih => rw [List.replicate_succ, List.cons_append, runsFrom, if_pos rfl, ih, Nat.add_right_comm]; rfl

/-- Inside a run, the runs of a decoded row of the other value are the runs it was decoded from. -/
theorem runsFrom_expandRuns {v : Byte} (hv : v = white ∨ v = black) (len : Nat) {runs : List Nat}
    (hpos : ∀ r ∈ runs, 1 ≤ r) : runsFrom v len (expandRuns (1#8 - v) runs) = len :: runs := by
  induction runs generalizing v len with
  | nil => rfl
  | cons r rest ih =>
    obtain ⟨n, rfl⟩ := Nat.exists_eq_add_of_le' (hpos r List.mem_cons_self)
    have hrest := ih (flip_legal hv) (n + 1) fun x hx => hpos x (List.mem_cons_of_mem _ hx)
    rw [expandRuns, List.replicate_succ, List.cons_append, runsFrom, if_neg (flip_ne_self hv), runsFrom_replicate,
      Nat.add_comm 1 n, hrest]

/-- Encoding a decoded row gives the row back. -/
theorem rleEncode_expandRuns {v : Byte} (hv : v = white ∨ v = black) {runs : List Nat} (hne : runs ≠ [])
    (hpos : ∀ r ∈ runs, 1 ≤ r) : rleEncode (expandRuns v runs) = rleRow v runs := by
  cases runs with
  | nil => exact absurd rfl hne
  | cons r rest =>
    obtain ⟨n, rfl⟩ := Nat.exists_eq_add_of_le' (hpos r List.mem_cons_self)
    rw [expandRuns, List.replicate_succ, List.cons_append, rleEncode, runList, runsFrom_replicate, Nat.add_comm 1 n,
      runsFrom_expandRuns hv _ fun x hx => hpos x (List.mem_cons_of_mem _ hx)]

/-- Decoding the runs of a row gives the row back. -/
theorem expandRuns_runsFrom {p : Byte} (hp : p = white ∨ p = black) (len : Nat) {rest : List Byte}
    (hrest : ∀ q ∈ rest, q = white ∨ q = black) :
    expandRuns p (runsFrom p len rest) = List.replicate len p ++ rest := by
  induction rest generalizing p len with
  | nil => simp [runsFrom, expandRuns]
  | cons q rest ih =>
    have hq := hrest q List.mem_cons_self
    have hrest' := fun x hx => hrest x (List.mem_cons_of_mem q hx)
    unfold runsFrom
    split
    · next hqp =>
      subst hqp
      rw [ih hp _ hrest', List.replicate_succ', List.append_assoc, List.singleton_append]
    · next hqp =>
      rw [expandRuns, ← eq_flip_of_ne hp hq hqp, ih hq 1 hrest', List.replicate_one, List.singleton_append]

/-- A valid RAW row of at least one pixel encodes to a valid RLE row of its runs, whose decoding is the row. -/
theorem rleEncode_eq_rleRow {w : Nat} {p : List Byte} (hw : 1 ≤ w) (hp : ValidRaw w p) :
    ∃ v, rleEncode p = rleRow v (runList p) ∧ (v = white ∨ v = black) ∧ ValidRuns w (runList p) ∧
      expandRuns v (runList p) = p := by
  obtain ⟨rfl, hlegal⟩ := hp
  cases p with
  | nil => cases hw
  | cons q rest =>
    have hq := hlegal q List.mem_cons_self
    exact ⟨q, rfl, hq, validRuns_runList (List.cons_ne_nil q rest),
      expandRuns_runsFrom hq 1 fun x hx => hlegal x (List.mem_cons_of_mem q hx)⟩

/-- Settles O26: the two directions are two inductions, on the runs and on the row. -/
theorem rowEncodeDecodeInverse : Obligations.RowEncodeDecodeInverse := by
  refine ⟨fun w v runs hv hruns => ?_, fun w p hw hp => ?_⟩
  · obtain ⟨hne, hbounds, -⟩ := hruns
    exact rleEncode_expandRuns hv hne fun r hr => (hbounds r hr).1
  · obtain ⟨v, hrow⟩ := rleEncode_eq_rleRow hw hp
    exact ⟨v, runList p, hrow⟩

/-- Run lengths that fit in an element can be read back from their elements. -/
theorem map_toNat_map_toU32 {runs : List Nat} (h : ∀ r ∈ runs, r < 2 ^ 32) :
    (runs.map toU32).map BitVec.toNat = runs := by
  rw [List.map_map]
  exact (List.map_congr_left fun r hr => toU32_toNat (h r hr)).trans (List.map_id runs)

/-- An RLE row has one leading value and one list of runs. -/
theorem rleRow_inj {v v' : Byte} {runs runs' : List Nat} (h : ∀ r ∈ runs, r < 2 ^ 32)
    (h' : ∀ r ∈ runs', r < 2 ^ 32) (heq : rleRow v runs = rleRow v' runs') : v = v' ∧ runs = runs' := by
  obtain ⟨hlead, hrest⟩ := List.cons.inj heq
  have hmap : runs.map toU32 = runs'.map toU32 := List.append_cancel_right hrest
  refine ⟨?_, ?_⟩
  · have hback := congrArg (BitVec.setWidth 8) hlead
    rwa [BitVec.setWidth_setWidth_of_le v (by decide), BitVec.setWidth_setWidth_of_le v' (by decide),
      BitVec.setWidth_eq, BitVec.setWidth_eq] at hback
  · rw [← map_toNat_map_toU32 h, hmap, map_toNat_map_toU32 h']

/-- Two valid rows with the same encoding are the same row. -/
theorem rleEncode_inj {w : Nat} {p q : List Byte} (hw : 1 ≤ w) (hlt : w < 2 ^ 32) (hp : ValidRaw w p)
    (hq : ValidRaw w q) (h : rleEncode p = rleEncode q) : p = q := by
  obtain ⟨v, hpe, -, ⟨-, hpb, -⟩, hpd⟩ := rleEncode_eq_rleRow hw hp
  obtain ⟨v', hqe, -, ⟨-, hqb, -⟩, hqd⟩ := rleEncode_eq_rleRow hw hq
  rw [hpe, hqe] at h
  obtain ⟨hv, hruns⟩ :=
    rleRow_inj (fun r hr => (hpb r hr).2.trans_lt hlt) (fun r hr => (hqb r hr).2.trans_lt hlt) h
  rw [← hpd, ← hqd, hv, hruns]

/-! ### The checks of a command (R117, R118) -/

/-- A command that checks the width first reports a bad width. -/
theorem widthChecked_of_conclude {i : Instr} {s : State} {f : Nat → CmdResult Commit}
    (h : exec i s = conclude s ((checkWidth s).bind f)) : WidthChecked i s := by
  refine ⟨fun h0 => ?_, fun hr => ?_⟩
  · rw [h, checkWidth_zero h0]
    rfl
  · rw [h, checkWidth_range hr]
    rfl

/-- A command that checks the pixels next reports the lowest bad column. -/
theorem pixelsChecked_of_conclude {i : Instr} {s : State} {f : Nat → List Byte → CmdResult Commit}
    (h : exec i s = conclude s ((checkWidth s).bind fun w => (checkRaw s.raw 0 w).bind (f w))) :
    PixelsChecked i s := by
  intro hw c x hc hbelow hx hne hne'
  have hbad : checkRaw s.raw 0 s.width.toNat = .error .rawValue c := by
    have := checkRaw_of_bad (c := 0) hc (fun d hd => by rw [Nat.zero_add]; exact hbelow d hd)
      (by rw [Nat.zero_add]; exact hx) hne hne'
    rwa [Nat.zero_add] at this
  rw [h, checkWidth_legal hw, CmdResult.bind_ok, hbad]
  rfl

/-- A row written from cell 0 is the row that the buffer holds. -/
theorem holdsRow_writeList {n : Nat} (m : List (Nat × BitVec n)) (row : List (BitVec n)) :
    HoldsRow (Memory.writeList m 0 row) row := by
  intro c hc
  rw [Memory.read_writeList_zero, if_pos hc]

/-- A legal width leaves room for at least one pixel. -/
theorem ValidRaw.ne_nil {w : Nat} {p : List Byte} (hp : ValidRaw w p) (hw : 1 ≤ w) : p ≠ [] := by
  rintro rfl
  exact absurd hp.1 (by simp; omega)

/-! ### RUNCOUNT and COMPRESS (R130, R135) -/

/-- Settles O9: the two checks as for every command that reads RAW, and the success is `execRuncount_of_row`. -/
theorem runcountRule : Obligations.RuncountRule :=
  ⟨rfl, fun _ => ⟨widthChecked_of_conclude rfl, pixelsChecked_of_conclude rfl,
    fun hw _ hp hr => execRuncount_of_row hw hp hr⟩⟩

/-- Settles O10: the success writes the encoded row from cell 0. -/
theorem compressRule : Obligations.CompressRule := by
  refine ⟨rfl, fun s => ⟨widthChecked_of_conclude rfl, pixelsChecked_of_conclude rfl, fun hw p hp hr => ?_⟩⟩
  have hlen := rleEncode_length (hp.ne_nil hw.1)
  exact ⟨Memory.writeList s.rle 0 (rleEncode p), execCompress_of_row hw hp hr, holdsRow_writeList s.rle _, hlen,
    keepsFrom_writeList s.rle hlen.le⟩

/-! ### DECOMPRESS and its row check (R119, R122, R140) -/

/-- The bounds of 00_scope R5 keep a legal width below 2^31. -/
theorem width_lt_of_wf {s : State} (hwf : s.params.wf = true) (hw : LegalWidth s) : s.width.toNat < 2 ^ 31 := by
  simp only [Params.wf, Bool.and_eq_true, decide_eq_true_eq] at hwf
  omega

section
variable {s : State} (hw : LegalWidth s)
include hw

/-- What the row check raises is the error that DECOMPRESS completes with. -/
theorem execDecompress_of_error {e : CmdError} {n : Nat} (h : checkRle s s.width.toNat = .error e n) :
    exec .decompress s = .next (failed s e.code n) := by
  simp only [exec, execDecompress, checkWidth_legal hw, CmdResult.bind_ok, h, CmdResult.bind_error, conclude,
    completeError_eq]

/-- An element after accepted runs at which the loop raises is where the row check raises. -/
theorem checkRle_error_after {v : Byte} {runs : List Nat} {e : CmdError} (hlt : s.width.toNat < 2 ^ 31)
    (hacc : AcceptedRuns s v runs)
    (he : ∀ left, checkRuns s.rle s.width.toNat (left + 1) (runs.length + 1) runs.sum = .error e (runs.length + 1)) :
    checkRle s s.width.toNat = .error e (runs.length + 1) := by
  have hroom : s.params.rleCap - 1 - runs.length = (s.params.rleCap - 2 - runs.length) + 1 := by
    obtain ⟨-, hpos, hsum, -⟩ := hacc
    have hlen := length_le_sum hpos
    simp only [Params.rleCap]
    omega
  rw [checkRle_accept hlt hw.2 hacc, hroom, he, CmdResult.bind_error]

end

theorem checkRle_lead {s : State} {x : Word} (w : Nat) (hx : Memory.read s.rle 0 = some x) (h0 : x ≠ 0#32)
    (h1 : x ≠ 1#32) : checkRle s w = .error .rleLead 0 := by
  have h0' : toS32 x ≠ 0 := fun h => h0 (BitVec.eq_of_toInt_eq (by rw [← toS32, h]; rfl))
  have h1' : toS32 x ≠ 1 := fun h => h1 (BitVec.eq_of_toInt_eq (by rw [← toS32, h]; rfl))
  simp only [checkRle, hx, if_pos (And.intro h0' h1')]

section
variable {rle : List (Nat × Word)} {w i sum : Nat} {x : Word} (left : Nat) (hx : Memory.read rle i = some x)
include hx

theorem checkRuns_sentinel_early (hs : x = sentinel) (hsum : sum ≠ w) :
    checkRuns rle w (left + 1) i sum = .error .rleSum i := by
  simp only [checkRuns, hx, if_pos (toS32_eq_neg_one.2 hs), if_neg hsum]

theorem checkRuns_bad_run (hs : x ≠ sentinel) (hr : toS32 x < 1 ∨ (w : Int) < toS32 x) :
    checkRuns rle w (left + 1) i sum = .error .rleRun i := by
  simp only [checkRuns, hx, if_neg (mt toS32_eq_neg_one.1 hs), if_pos hr]

theorem checkRuns_past_width (h1 : 1 ≤ toS32 x) (hle : toS32 x ≤ w) (hsum : (w : Int) - (sum : Int) < toS32 x) :
    checkRuns rle w (left + 1) i sum = .error .rleSum i := by
  have hs : toS32 x ≠ -1 := by omega
  have hr : ¬(toS32 x < 1 ∨ (w : Int) < toS32 x) := by omega
  simp only [checkRuns, hx, if_neg hs, if_neg hr, if_pos hsum]

end

/-- The row check of DECOMPRESS, error by error. -/
theorem rleRowChecked {s : State} (hwf : s.params.wf = true) (hw : LegalWidth s) : RleRowChecked s := by
  have hlt := width_lt_of_wf hwf hw
  refine ⟨fun x hx h0 h1 => execDecompress_of_error hw (checkRle_lead _ hx h0 h1),
    fun v runs x hacc hx => ⟨fun hs hsum => ?_, fun hs hr => ?_, fun h1 hle hsum => ?_⟩⟩
  · exact execDecompress_of_error hw (checkRle_error_after hw hlt hacc fun n => checkRuns_sentinel_early n hx hs hsum)
  · exact execDecompress_of_error hw (checkRle_error_after hw hlt hacc fun n => checkRuns_bad_run n hx hs hr)
  · exact execDecompress_of_error hw (checkRle_error_after hw hlt hacc fun n => checkRuns_past_width n hx h1 hle hsum)

theorem expandRuns_length_of_valid {w : Nat} (v : Byte) {runs : List Nat} (h : ValidRuns w runs) :
    (expandRuns v runs).length = w := by
  obtain ⟨-, -, hsum⟩ := h
  rw [expandRuns_length, hsum]

/-- A valid row in the buffer is decoded into RAW. -/
theorem execDecompress_of_row {s : State} {v : Byte} {runs : List Nat} (hwf : s.params.wf = true) (hw : LegalWidth s)
    (hv : v = white ∨ v = black) (hruns : ValidRuns s.width.toNat runs) (hrow : HoldsRow s.rle (rleRow v runs)) :
    exec .decompress s = .next (completeSuccess (runs.length + 2 + s.width.toNat)
      (commitRaw (expandRuns v runs) s.width.toNat s)) :=
  execDecompress_of_check hw (checkRle_of_row (width_lt_of_wf hwf hw) hw.2 hv hruns hrow)

/-- Settles O11: the errors of the row check, and the success writes the decoded row from cell 0. -/
theorem decompressRule : Obligations.DecompressRule := by
  refine ⟨rfl, fun s => ⟨widthChecked_of_conclude rfl, fun hwf hw => ⟨rleRowChecked hwf hw, ?_⟩⟩⟩
  intro v runs hv hruns hrow
  have hlen := expandRuns_length_of_valid v hruns
  exact ⟨Memory.writeList s.raw 0 (expandRuns v runs), execDecompress_of_row hwf hw hv hruns hrow,
    holdsRow_writeList s.raw _, hlen, keepsFrom_writeList s.raw hlen.le⟩

/-- Settles O16: the errors one by one, and acceptance in both directions. -/
theorem rleRowChecks : Obligations.RleRowChecks := by
  intro s hwf hw
  refine ⟨rleRowChecked hwf hw, fun v runs hv hruns hrow => ?_, fun v runs h => ?_⟩
  · exact checkRle_of_row (width_lt_of_wf hwf hw) hw.2 hv hruns hrow
  · obtain ⟨hv, hruns, hrow, -⟩ := checkRle_ok hw.1 h
    exact ⟨hv, hruns, hrow⟩

/-- A completion with an error other than RLE_NO_SENTINEL, or one that leaves ERRCODE 0, does not report code 8. -/
theorem errcode_ne_eight {s t : State} (h0 : s.errcode = 0#4)
    (h : (∃ e n, n ≤ s.params.rleCap ∧ e ≠ .rleNoSentinel ∧ t = completeError e n s) ∨
      ∃ n u, t = completeSuccess n u ∧ u.errcode = s.errcode) : t.errcode ≠ 8#4 := by
  rcases h with ⟨e, n, -, he, rfl⟩ | ⟨n, u, rfl, hu⟩
  · exact mt CmdError.code_eq_eight.1 he
  · rw [completeSuccess_errcode, hu, h0]
    decide

/-- Settles O17: the errors of the row check, and for the five commands that do not scan, a completion is another
error or a success that leaves ERRCODE 0. -/
theorem noSentinelErrorOnlyFromScan : Obligations.NoSentinelErrorOnlyFromScan := by
  refine ⟨fun s e n hw h => ?_, fun i s t hsize hruns h0 h => ?_⟩
  · obtain ⟨hn, -, he⟩ := checkRle_error hw.2 h
    refine ⟨?_, hn, ?_⟩
    · rcases he with rfl | rfl | rfl <;> decide
    · simp only [Params.rleCap]
      omega
  · apply errcode_ne_eight h0
    cases i with
    | runcount => exact (execRuncount_next h).imp_right fun ⟨_, _, _, _, ht⟩ => ⟨_, _, ht, rfl⟩
    | compress => exact (execCompress_next h).imp_right fun ⟨_, _, _, _, ht⟩ => ⟨_, _, ht, rfl⟩
    | decompress =>
      exact (execDecompress_next h).imp_right fun ⟨_, _, _, _, _, _, _, ht⟩ => ⟨_, _, ht, rfl⟩
    | sizeof => exact absurd rfl hsize
    | runsof => exact absurd rfl hruns
    | pack => exact (execPack_next h).imp_right fun ⟨_, _, _, _, ht⟩ => ⟨_, _, ht, rfl⟩
    | unpack => exact (execUnpack_next h).imp_right fun ⟨_, _, _, _, ht⟩ => ⟨_, _, ht, rfl⟩

/-! ### SIZEOF and RUNSOF (R121, R145, R148) -/

theorem execSizeof_of_none {s : State} (h : NoSentinelBelow s s.params.rleCap) :
    execSizeof s = .next (failed s 8#4 s.params.rleCap) := by
  simp only [execSizeof, scanSentinel_of_none h, CmdResult.bind_error, conclude, completeError_eq, CmdError.code]

theorem execRunsof_of_none {s : State} (h : NoSentinelBelow s s.params.rleCap) :
    execRunsof s = .next (failed s 8#4 s.params.rleCap) := by
  simp only [execRunsof, scanSentinel_of_none h, CmdResult.bind_error, conclude, completeError_eq, CmdError.code]

/-- Settles O12: the two answers of the scan. -/
theorem sizeofRule : Obligations.SizeofRule :=
  ⟨rfl, fun _ =>
    ⟨fun _ h1 hi hb hx => execSizeof_of_scan (scanSentinel_of_found h1 hi hb hx), execSizeof_of_none⟩⟩

/-- Settles O13: the two answers of the scan. -/
theorem runsofRule : Obligations.RunsofRule :=
  ⟨rfl, fun _ =>
    ⟨fun _ h1 hi hb hx => execRunsof_of_scan (scanSentinel_of_found h1 hi hb hx), execRunsof_of_none⟩⟩

/-- A run length that fits in 31 bits is not the sentinel. -/
theorem toU32_ne_sentinel {r : Nat} (h : r < 2 ^ 31) : toU32 r ≠ sentinel := by
  intro heq
  have hneg := toS32_toU32 h
  rw [heq, toS32_sentinel] at hneg
  omega

/-- The scan of a valid RLE row ends at its last cell. -/
theorem scanSentinel_of_row {s : State} {v : Byte} {runs : List Nat} (hlt : s.width.toNat < 2 ^ 31)
    (hcap : s.width.toNat ≤ s.params.maxWidth) (hruns : ValidRuns s.width.toNat runs)
    (hrow : HoldsRow s.rle (rleRow v runs)) : scanSentinel s = .ok (runs.length + 1) := by
  obtain ⟨-, hbounds, hsum⟩ := hruns
  have hlen := length_le_sum fun r hr => (hbounds r hr).1
  have hend : Memory.read s.rle (runs.length + 1) = some sentinel := by
    rw [hrow _ (by simp)]
    simp [rleRow]
  refine scanSentinel_of_found (by omega) (by simp only [Params.rleCap]; omega) (fun j h1 hj => ?_) hend
  obtain ⟨k, rfl⟩ := Nat.exists_eq_add_of_le' h1
  have hk : k < runs.length := by omega
  have hread : Memory.read s.rle (k + 1) = some (toU32 runs[k]) := by
    rw [hrow _ (by simp; omega), rleRow, List.getElem?_cons_succ, List.getElem?_append_left (by simpa using hk),
      List.getElem?_map, List.getElem?_eq_getElem hk, Option.map_some]
  exact ⟨_, hread, toU32_ne_sentinel ((hbounds _ (List.getElem_mem hk)).2.trans_lt hlt)⟩

/-! ### Two commands, one after the other (R150 to R152) -/

/-- Settles O30: COMPRESS leaves the encoded row, which DECOMPRESS accepts and decodes. -/
theorem compressThenDecompressRestores : Obligations.CompressThenDecompressRestores := by
  intro s p hwf hw hp hr
  obtain ⟨v, hrow, hv, hruns, hdec⟩ := rleEncode_eq_rleRow hw.1 hp
  refine ⟨_, _, execCompress_of_row (s := issue 0x00000002#32 s) hw hp hr, rfl,
    execDecompress_of_row (v := v) (runs := runList p) hwf hw hv hruns ?_, rfl, ?_⟩
  · rw [← hrow]
    exact holdsRow_writeList s.rle _
  · rw [hdec]
    exact holdsRow_writeList s.raw p

/-- Settles O31: DECOMPRESS leaves a valid RAW row, whose encoding is the RLE row; and a row is determined by its
encoding. -/
theorem decompressThenCompressRestores : Obligations.DecompressThenCompressRestores := by
  refine ⟨fun s v runs hwf hw hv hruns hrow => ?_, fun w p q h1 hw hp hq => ⟨fun h => h ▸ rfl, fun h => ?_⟩⟩
  · have hraw : ValidRaw s.width.toNat (expandRuns v runs) :=
      ⟨expandRuns_length_of_valid v hruns, expandRuns_legal hv runs⟩
    have henc := rowEncodeDecodeInverse.1 _ v runs hv hruns
    refine ⟨_, _, execDecompress_of_row (s := issue 0x00000003#32 s) hwf hw hv hruns hrow, rfl,
      execCompress_of_row (p := expandRuns v runs) hw hraw (holdsRow_writeList s.raw _), rfl, ?_⟩
    rw [← henc]
    exact holdsRow_writeList s.rle _
  · exact rleEncode_inj h1 (by omega) hp hq h

/-- Settles O32: the scan of the row that COMPRESS leaves ends at index `k + 1`. -/
theorem countsAgree : Obligations.CountsAgree := by
  intro s p hwf hw hp hr
  obtain ⟨v, hrow, -, hruns, -⟩ := rleEncode_eq_rleRow hw.1 hp
  have hlt := width_lt_of_wf hwf hw
  have hholds : HoldsRow (Memory.writeList s.rle 0 (rleEncode p)) (rleRow v (runList p)) :=
    hrow ▸ holdsRow_writeList s.rle (rleEncode p)
  exact ⟨_, _, _, _, execRuncount_of_row (s := issue 0x00000001#32 s) hw hp hr, rfl,
    execCompress_of_row (s := issue 0x00000002#32 s) hw hp hr, rfl,
    execSizeof_of_scan (scanSentinel_of_row hlt hw.2 hruns hholds), rfl,
    execRunsof_of_scan (scanSentinel_of_row hlt hw.2 hruns hholds), rfl⟩

/-! ### What a command's outputs depend on (R153) -/

/-- Registers: both completions have the same code; on an error the same ERRINFO, on a success the same RESULT and the
same advance of ACCESS_COUNT. -/
def SameRegisters (s s' t t' : State) : Prop :=
  t'.errcode = t.errcode ∧ (t.errcode ≠ 0#4 → t'.errinfo = t.errinfo) ∧
    (t.errcode = 0#4 → t'.result = t.result ∧ t'.acount - s'.acount = t.acount - s.acount)

theorem SameRegisters.of_error {e : CmdError} {n : Nat} {s s' : State} :
    SameRegisters s s' (completeError e n s) (completeError e n s') :=
  ⟨rfl, fun _ => rfl, fun h => absurd h e.code_ne_zero⟩

/-- Two commits that write the same RESULT, and no ERRCODE and no ACCESS_COUNT, complete alike. -/
theorem SameRegisters.of_success {count count' : Nat} {s s' u u' : State} (h0 : s.errcode = 0#4)
    (h0' : s'.errcode = 0#4) (hu : u.errcode = s.errcode ∧ u.acount = s.acount)
    (hu' : u'.errcode = s'.errcode ∧ u'.acount = s'.acount) (hres : u'.result = u.result) (hcount : count' = count) :
    SameRegisters s s' (completeSuccess count u) (completeSuccess count' u') := by
  obtain ⟨hcode, hacount⟩ := hu
  obtain ⟨hcode', hacount'⟩ := hu'
  refine ⟨?_, fun h => absurd (hcode.trans h0) h, fun _ => ⟨hres, ?_⟩⟩
  · rw [completeSuccess_errcode, completeSuccess_errcode, hcode, hcode', h0, h0']
  · rw [completeSuccess_acount, completeSuccess_acount, hacount, hacount', add_sub_cancel_left,
      add_sub_cancel_left, hcount]

/-- Cells: the same number is stored, and each stored cell holds the same. -/
def SameStored (i : Instr) (s s' t t' : State) : Prop :=
  storedCells i s' = storedCells i s ∧
    (∀ j, j < storedRaw i s → Memory.read t'.raw j = Memory.read t.raw j) ∧
    (∀ j, j < storedRle i s → Memory.read t'.rle j = Memory.read t.rle j) ∧
    (∀ j, j < storedPbm i s → Memory.read t'.pbm j = Memory.read t.pbm j)

theorem storedRaw_le (i : Instr) (s : State) : storedRaw i s ≤ storedCells i s := by
  cases i <;> simp [storedRaw]

theorem storedRle_le (i : Instr) (s : State) : storedRle i s ≤ storedCells i s := by
  cases i <;> simp [storedRle]

theorem storedPbm_le (i : Instr) (s : State) : storedPbm i s ≤ storedCells i s := by
  cases i <;> simp [storedPbm]

theorem SameStored.of_nothing {i : Instr} {s s' : State} (t t' : State) (h : storedCells i s = 0)
    (h' : storedCells i s' = 0) : SameStored i s s' t t' := by
  have hraw := storedRaw_le i s
  have hrle := storedRle_le i s
  have hpbm := storedPbm_le i s
  exact ⟨h'.trans h.symm, by omega, by omega, by omega⟩

/-- A row written from cell 0 reads alike in both buffers. -/
theorem read_writeList_same {n : Nat} (m m' : List (Nat × BitVec n)) {row : List (BitVec n)} {j : Nat}
    (h : j < row.length) :
    Memory.read (Memory.writeList m' 0 row) j = Memory.read (Memory.writeList m 0 row) j := by
  rw [holdsRow_writeList m' row j h, holdsRow_writeList m row j h]

section
variable {s s' : State} (count n count' n' : Nat)

theorem SameStored.of_raw {i : Instr} {row : List Byte} (hi : i = .decompress ∨ i = .unpack)
    (h : storedCells i s = row.length) (h' : storedCells i s' = row.length) :
    SameStored i s s' (completeSuccess count (commitRaw row n s)) (completeSuccess count' (commitRaw row n' s')) := by
  refine ⟨h'.trans h.symm, fun j hj => read_writeList_same s.raw s'.raw ?_, ?_, ?_⟩
  · exact h ▸ hj.trans_le (storedRaw_le i s)
  · rcases hi with rfl | rfl <;> rintro j ⟨⟩
  · rcases hi with rfl | rfl <;> rintro j ⟨⟩

theorem SameStored.of_rle {row : List Word} (h : storedCells .compress s = row.length)
    (h' : storedCells .compress s' = row.length) :
    SameStored .compress s s' (completeSuccess count (commitRle row n s))
      (completeSuccess count' (commitRle row n' s')) :=
  ⟨h'.trans h.symm, nofun, fun _ hj => read_writeList_same s.rle s'.rle (h ▸ hj), nofun⟩

theorem SameStored.of_pbm {row : List Byte} (h : storedCells .pack s = row.length)
    (h' : storedCells .pack s' = row.length) :
    SameStored .pack s s' (completeSuccess count (commitPbm row n s))
      (completeSuccess count' (commitPbm row n' s')) :=
  ⟨h'.trans h.symm, nofun, nofun, fun _ hj => read_writeList_same s.pbm s'.pbm (h ▸ hj)⟩

end

/-- The checks of a command after its width check, as one result. -/
def afterWidth {α : Type} (s : State) (check : Nat → CmdResult α) : CmdResult α := (checkWidth s).bind check

theorem afterWidth_legal {α : Type} {s : State} (hw : LegalWidth s) (check : Nat → CmdResult α) :
    afterWidth s check = check s.width.toNat := by
  rw [afterWidth, checkWidth_legal hw, CmdResult.bind_ok]

/-- A commit phase that uses the checked width uses WIDTH. -/
theorem bind_afterWidth {α : Type} (s : State) (check : Nat → CmdResult α) (f : Nat → α → Commit) :
    ((checkWidth s).bind fun w => (check w).bind fun a => .ok (f w a)) =
      (afterWidth s check).bind fun a => .ok (f s.width.toNat a) := by
  unfold afterWidth
  rcases checkWidth_cases s with ⟨-, hc⟩ | ⟨-, hc⟩ | ⟨-, hc⟩ <;> rw [hc] <;> rfl

/-- Two states with the same WIDTH and parameters, and checks that agree where the first does not fault. -/
theorem afterWidth_same {α : Type} {s s' : State} {check check' : Nat → CmdResult α} (hp : s'.params = s.params)
    (hw : s'.width = s.width)
    (h : ∀ w, checkWidth s = .ok w → (∀ f, check w ≠ .fault f) → check' w = check w)
    (hf : ∀ f, afterWidth s check ≠ .fault f) : afterWidth s' check' = afterWidth s check := by
  unfold afterWidth at hf ⊢
  rw [checkWidth_same hp hw]
  cases hc : checkWidth s with
  | ok w => exact h w hc (by simpa only [hc, CmdResult.bind_ok] using hf)
  | error e n => rfl
  | fault f => rfl

/-- Two commands of one shape, checks and then a commit, whose checks agree: both answer a next state, both with the
error or both with the commit of what the checks gave. -/
theorem conclude_same {α : Type} {s s' t : State} {r r' : CmdResult α} {f f' : α → Commit}
    (hr : (∀ flt, r ≠ .fault flt) → r' = r) (h : conclude s (r.bind fun a => .ok (f a)) = .next t) :
    (∃ e n, r = .error e n ∧ r' = .error e n ∧ t = completeError e n s ∧
      conclude s' (r'.bind fun a => .ok (f' a)) = .next (completeError e n s')) ∨
    (∃ a, r = .ok a ∧ r' = .ok a ∧ t = completeSuccess (f a).count (f a).written ∧
      conclude s' (r'.bind fun a => .ok (f' a)) = .next (completeSuccess (f' a).count (f' a).written)) := by
  cases r with
  | ok a =>
    obtain rfl := hr nofun
    cases h
    exact .inr ⟨a, rfl, rfl, rfl, rfl⟩
  | error e n =>
    obtain rfl := hr nofun
    cases h
    exact .inl ⟨e, n, rfl, rfl, rfl, rfl⟩
  | fault flt => cases h

/-- The cells that UNPACK reads for a width. -/
def readScanline (s : State) (w : Nat) : CmdResult (List Byte) := readPbm s.pbm 0 (scanlineBytes w)

theorem afterWidth_ok {α : Type} {s : State} {check : Nat → CmdResult α} {a : α} (h : afterWidth s check = .ok a) :
    LegalWidth s ∧ check s.width.toNat = .ok a := by
  unfold afterWidth at h
  rcases checkWidth_cases s with ⟨-, hc⟩ | ⟨-, hc⟩ | ⟨hw, hc⟩ <;> rw [hc] at h
  · cases h
  · cases h
  · exact ⟨hw, h⟩

/-! ### The cells a command with an error stores: none (60_exceptions R192) -/

section
variable {s : State} {e : CmdError} {n : Nat}

theorem storedCells_compress_error (h : afterWidth s (checkRaw s.raw 0) = .error e n) :
    storedCells .compress s = 0 := by
  unfold afterWidth at h
  simp only [storedCells, h]

theorem storedCells_pack_error (h : afterWidth s (checkRaw s.raw 0) = .error e n) : storedCells .pack s = 0 := by
  unfold afterWidth at h
  simp only [storedCells, h]

theorem storedCells_decompress_error (h : afterWidth s (checkRle s) = .error e n) :
    storedCells .decompress s = 0 := by
  unfold afterWidth at h
  simp only [storedCells, h]

theorem storedCells_unpack_error (h : afterWidth s (readScanline s) = .error e n) : storedCells .unpack s = 0 := by
  rcases checkWidth_cases s with ⟨-, hc⟩ | ⟨-, hc⟩ | ⟨hw, -⟩
  · simp only [storedCells, hc]
  · simp only [storedCells, hc]
  · rw [afterWidth_legal hw] at h
    exact absurd h readPbm_not_error

end

/-! ### The cells a command with success stores: its row -/

section
variable {s : State}

theorem storedCells_compress_ok {row : List Byte} (h : afterWidth s (checkRaw s.raw 0) = .ok row) :
    storedCells .compress s = (rleEncode row).length := by
  unfold afterWidth at h
  simp only [storedCells, h]

theorem storedCells_pack_ok {row : List Byte} (h : afterWidth s (checkRaw s.raw 0) = .ok row) :
    storedCells .pack s = (packRow row).length := by
  unfold afterWidth at h
  simp only [storedCells, h]

theorem storedCells_decompress_ok {x : Byte × List Nat} (h : afterWidth s (checkRle s) = .ok x) :
    storedCells .decompress s = (expandRuns x.1 x.2).length := by
  unfold afterWidth at h
  simp only [storedCells, h]

theorem storedCells_unpack_ok {bytes : List Byte} (h : afterWidth s (readScanline s) = .ok bytes) :
    storedCells .unpack s = (unpackRow bytes s.width.toNat).length := by
  obtain ⟨hw, -⟩ := afterWidth_ok h
  rw [storedCells_unpack hw, unpackRow_length]

end

/-- What `Obligations.OutputsDependOnlyOnOperands` says of one completion. -/
def SameOutputs (i : Instr) (s s' t : State) : Prop :=
  ∃ t', exec i s' = .next t' ∧ SameRegisters s s' t t' ∧ SameStored i s s' t t'

/-- Two states whose checks agree have the same outputs, when an error stores no cell and the two commits write the same
registers and cells. -/
theorem sameOutputs_of_checks {α : Type} {i : Instr} {s s' t : State} {r r' : CmdResult α} {f f' : α → Commit}
    (hs : exec i s = conclude s (r.bind fun a => .ok (f a)))
    (hs' : exec i s' = conclude s' (r'.bind fun a => .ok (f' a)))
    (hr : (∀ flt, r ≠ .fault flt) → r' = r)
    (hreg : ∀ a, SameRegisters s s' (completeSuccess (f a).count (f a).written)
      (completeSuccess (f' a).count (f' a).written))
    (herr : ∀ e n, r = .error e n → r' = .error e n → storedCells i s = 0 ∧ storedCells i s' = 0)
    (hok : ∀ a, r = .ok a → r' = .ok a → SameStored i s s' (completeSuccess (f a).count (f a).written)
      (completeSuccess (f' a).count (f' a).written))
    (h : exec i s = .next t) : SameOutputs i s s' t := by
  rw [hs] at h
  rcases conclude_same (s' := s') (f' := f') hr h with ⟨e, n, he, he', rfl, ht'⟩ | ⟨a, ha, ha', rfl, ht'⟩
  · obtain ⟨h0, h0'⟩ := herr e n he he'
    exact ⟨_, hs'.trans ht', .of_error, .of_nothing _ _ h0 h0'⟩
  · exact ⟨_, hs'.trans ht', hreg a, hok a ha ha'⟩

/-- Every command but the two that scan reads WIDTH. -/
theorem SameOperands.width {i : Instr} {s s' : State} (h : SameOperands i s s') (hi : i ≠ .sizeof ∧ i ≠ .runsof) :
    s'.width = s.width := by
  obtain ⟨-, h⟩ := h
  cases i with
  | sizeof => exact absurd rfl hi.1
  | runsof => exact absurd rfl hi.2
  | runcount => exact h.1
  | compress => exact h.1
  | decompress => exact h.1
  | pack => exact h.1
  | unpack => exact h.1

/-- The checks of RUNCOUNT, COMPRESS and PACK. -/
theorem afterWidth_raw_same {i : Instr} {s s' : State} (hi : i = .runcount ∨ i = .compress ∨ i = .pack)
    (hop : SameOperands i s s') (hf : ∀ f, afterWidth s (checkRaw s.raw 0) ≠ .fault f) :
    afterWidth s' (checkRaw s'.raw 0) = afterWidth s (checkRaw s.raw 0) := by
  have hw : s'.width = s.width := hop.width (by rcases hi with rfl | rfl | rfl <;> decide)
  exact afterWidth_same hop.1 hw (fun w hc hf => rawChecks_same hi hop hc hf) hf

/-! ### Each command as its checks and then its commit -/

theorem exec_runcount_eq (s : State) : exec .runcount s = conclude s ((afterWidth s (checkRaw s.raw 0)).bind
    fun row => .ok ⟨commitCount (runList row).length s, s.width.toNat⟩) :=
  congrArg (conclude s) (bind_afterWidth s (checkRaw s.raw 0) _)

theorem exec_compress_eq (s : State) : exec .compress s = conclude s ((afterWidth s (checkRaw s.raw 0)).bind
    fun row => .ok ⟨commitRle (rleEncode row) ((runList row).length + 2) s,
      s.width.toNat + (runList row).length + 2⟩) :=
  congrArg (conclude s) (bind_afterWidth s (checkRaw s.raw 0) _)

theorem exec_decompress_eq (s : State) : exec .decompress s = conclude s ((afterWidth s (checkRle s)).bind
    fun x => .ok ⟨commitRaw (expandRuns x.1 x.2) s.width.toNat s, x.2.length + 2 + s.width.toNat⟩) :=
  congrArg (conclude s) (bind_afterWidth s (checkRle s) _)

theorem exec_sizeof_eq (s : State) : exec .sizeof s = conclude s ((scanSentinel s).bind
    fun i => .ok ⟨commitCount (i + 1) s, i⟩) := rfl

theorem exec_runsof_eq (s : State) : exec .runsof s = conclude s ((scanSentinel s).bind
    fun i => .ok ⟨commitCount (i - 1) s, i⟩) := rfl

theorem exec_pack_eq (s : State) : exec .pack s = conclude s ((afterWidth s (checkRaw s.raw 0)).bind
    fun row => .ok ⟨commitPbm (packRow row) (scanlineBytes s.width.toNat) s,
      s.width.toNat + scanlineBytes s.width.toNat⟩) :=
  congrArg (conclude s) (bind_afterWidth s (checkRaw s.raw 0) _)

theorem exec_unpack_eq (s : State) : exec .unpack s = conclude s ((afterWidth s (readScanline s)).bind
    fun bytes => .ok ⟨commitRaw (unpackRow bytes s.width.toNat) s.width.toNat s,
      scanlineBytes s.width.toNat + s.width.toNat⟩) :=
  congrArg (conclude s) (bind_afterWidth s (readScanline s) _)

/-- Settles O24, command by command: the checks of the two states agree, and the two commits write what the checks
gave. -/
theorem outputsDependOnlyOnOperands : Obligations.OutputsDependOnlyOnOperands := by
  intro i s s' t hop h0 h0' h
  suffices hsame : SameOutputs i s s' t by
    obtain ⟨t', ht', ⟨hcode, hinfo, hcounts⟩, hcells⟩ := hsame
    exact ⟨t', ht', hcode, hinfo, hcounts, hcells⟩
  cases i with
  | runcount =>
    have hw := hop.width (by decide)
    exact sameOutputs_of_checks (exec_runcount_eq s) (exec_runcount_eq s') (afterWidth_raw_same (.inl rfl) hop)
      (fun _ => .of_success h0 h0' ⟨rfl, rfl⟩ ⟨rfl, rfl⟩ rfl (by rw [hw]))
      (fun _ _ _ _ => ⟨rfl, rfl⟩) (fun _ _ _ => .of_nothing _ _ rfl rfl) h
  | compress =>
    have hw := hop.width (by decide)
    exact sameOutputs_of_checks (exec_compress_eq s) (exec_compress_eq s')
      (afterWidth_raw_same (.inr (.inl rfl)) hop)
      (fun _ => .of_success h0 h0' ⟨rfl, rfl⟩ ⟨rfl, rfl⟩ rfl (by rw [hw]))
      (fun _ _ he he' => ⟨storedCells_compress_error he, storedCells_compress_error he'⟩)
      (fun _ ha ha' => .of_rle _ _ _ _ (storedCells_compress_ok ha) (storedCells_compress_ok ha')) h
  | decompress =>
    have hw := hop.width (by decide)
    exact sameOutputs_of_checks (exec_decompress_eq s) (exec_decompress_eq s')
      (afterWidth_same hop.1 hw fun _ => rleCheck_same hop)
      (fun _ => .of_success h0 h0' ⟨rfl, rfl⟩ ⟨rfl, rfl⟩ (by simp only [commitRaw_result, hw]) (by rw [hw]))
      (fun _ _ he he' => ⟨storedCells_decompress_error he, storedCells_decompress_error he'⟩)
      (fun _ ha ha' => .of_raw _ _ _ _ (.inl rfl) (storedCells_decompress_ok ha) (storedCells_decompress_ok ha')) h
  | sizeof =>
    exact sameOutputs_of_checks (exec_sizeof_eq s) (exec_sizeof_eq s') (scan_same (.inl rfl) hop)
      (fun _ => .of_success h0 h0' ⟨rfl, rfl⟩ ⟨rfl, rfl⟩ rfl rfl)
      (fun _ _ _ _ => ⟨rfl, rfl⟩) (fun _ _ _ => .of_nothing _ _ rfl rfl) h
  | runsof =>
    exact sameOutputs_of_checks (exec_runsof_eq s) (exec_runsof_eq s') (scan_same (.inr rfl) hop)
      (fun _ => .of_success h0 h0' ⟨rfl, rfl⟩ ⟨rfl, rfl⟩ rfl rfl)
      (fun _ _ _ _ => ⟨rfl, rfl⟩) (fun _ _ _ => .of_nothing _ _ rfl rfl) h
  | pack =>
    have hw := hop.width (by decide)
    exact sameOutputs_of_checks (exec_pack_eq s) (exec_pack_eq s') (afterWidth_raw_same (.inr (.inr rfl)) hop)
      (fun _ => .of_success h0 h0' ⟨rfl, rfl⟩ ⟨rfl, rfl⟩ (by simp only [commitPbm_result, hw]) (by rw [hw]))
      (fun _ _ he he' => ⟨storedCells_pack_error he, storedCells_pack_error he'⟩)
      (fun _ ha ha' => .of_pbm _ _ _ _ (storedCells_pack_ok ha) (storedCells_pack_ok ha')) h
  | unpack =>
    have hw := hop.width (by decide)
    exact sameOutputs_of_checks (exec_unpack_eq s) (exec_unpack_eq s')
      (afterWidth_same hop.1 hw fun _ hc _ => pbmRead_same hop hc)
      (fun _ => .of_success h0 h0' ⟨rfl, rfl⟩ ⟨rfl, rfl⟩ (by simp only [commitRaw_result, hw]) (by rw [hw]))
      (fun _ _ he he' => ⟨storedCells_unpack_error he, storedCells_unpack_error he'⟩)
      (fun bytes ha ha' => by
        rw [hw]
        exact .of_raw _ _ _ _ (.inr rfl) (storedCells_unpack_ok ha) (hw ▸ storedCells_unpack_ok ha')) h

end Sys2Proof.Machine
end

section
/-! PROOFS. The family of 41_pbm_codec: the layout of a scanline (R160 to R164), the commands PACK and UNPACK (R165,
R170), and what one leaves after the other (R175, R176). -/

namespace Sys2Proof.Machine

/-! ### The bits of a scanline (R160 to R163) -/

/-- The bit of column `c` in a packed row: the pixel, 0 at or past the width. -/
theorem packRow_getLsbD {p : List Byte} {c : Nat} (h : c < 8 * scanlineBytes p.length) :
    ((packRow p)[c / 8]?.getD 0#8).getLsbD (7 - c % 8) = decide (p[c]? = some black) := by
  rw [packRow_getElem? (Nat.div_lt_of_lt_mul h), Option.getD_some, packByte_getLsbD p _ _ (Nat.mod_lt c (by decide)),
    Nat.div_add_mod]

/-- Every column of a row has a bit in its scanline. -/
theorem lt_scanline_bits {w c : Nat} (h : c < w) : c < 8 * scanlineBytes w := by
  unfold scanlineBytes
  omega

/-- Settles O29: the bit of a packed column is `packRow_getLsbD`; an unpacked column is `unpackPixel`, whose definition
reads that bit. -/
theorem scanlineBitOrder : Obligations.ScanlineBitOrder := by
  refine ⟨fun p => ⟨packRow_length p, fun c hc => packRow_getLsbD hc⟩, fun bytes w c _ hc => ?_⟩
  rw [unpackRow_getElem? hc, unpackPixel, List.getD_eq_getElem?_getD]
  rfl

/-! ### Packing and unpacking a row (R164) -/

/-- A legal pixel is determined by whether it is BLACK. -/
theorem eq_of_eq_black_iff {x y : Byte} (hx : x = white ∨ x = black) (hy : y = white ∨ y = black)
    (h : x = black ↔ y = black) : x = y := by
  rcases hx with rfl | rfl
  · exact (hy.resolve_right fun hb => absurd (h.2 hb) (by decide)).symm
  · exact (h.1 rfl).symm

/-- Unpacking the scanline of a valid row gives the row. -/
theorem unpackRow_packRow {w : Nat} {p : List Byte} (hp : ValidRaw w p) : unpackRow (packRow p) w = p := by
  obtain ⟨rfl, hlegal⟩ := hp
  refine List.ext_getElem? fun c => ?_
  by_cases hc : c < p.length
  · rw [unpackRow_getElem? hc, List.getElem?_eq_getElem hc]
    refine congrArg some (eq_of_eq_black_iff (unpackPixel_legal _ c) (hlegal _ (List.getElem_mem hc)) ?_)
    rw [unpackPixel_eq_black, List.getD_eq_getElem?_getD, packRow_getLsbD (lt_scanline_bits hc),
      List.getElem?_eq_getElem hc, decide_eq_true_iff, Option.some_inj]
  · rw [List.getElem?_eq_none (by simpa using hc), List.getElem?_eq_none (by omega)]

/-- An unpacked row is a valid RAW row (R113). -/
theorem validRaw_unpackRow (bytes : List Byte) (w : Nat) : ValidRaw w (unpackRow bytes w) :=
  ⟨unpackRow_length bytes w, unpackRow_legal bytes w⟩

/-- A byte packed from an unpacked row: the bits of columns below the width as they were, the others 0. -/
theorem packByte_unpackRow_getLsbD (bytes : List Byte) (w j : Nat) {b : Nat} (hb : b < 8) :
    (packByte (unpackRow bytes w) j).getLsbD (7 - b) =
      (decide (8 * j + b < w) && (bytes.getD j 0#8).getLsbD (7 - b)) := by
  rw [packByte_getLsbD _ j b hb]
  by_cases hc : 8 * j + b < w
  · have hdiv : (8 * j + b) / 8 = j := by omega
    have hmod : (8 * j + b) % 8 = b := by omega
    rw [unpackRow_getElem? hc, Bool.eq_iff_iff, decide_eq_true_iff, Option.some_inj, unpackPixel_eq_black, hdiv, hmod]
    simp [hc]
  · rw [List.getElem?_eq_none (by simpa using hc)]
    simp [hc]

/-- A byte with no padding bit is packed as it was. -/
theorem packByte_unpackRow_full (bytes : List Byte) {w j : Nat} (h : 8 * j + 8 ≤ w) :
    packByte (unpackRow bytes w) j = bytes.getD j 0#8 := by
  refine BitVec.eq_of_getLsbD_eq fun i hi => ?_
  have hbit := packByte_unpackRow_getLsbD bytes w j (b := 7 - i) (by omega)
  rw [show 7 - (7 - i) = i by omega] at hbit
  rw [hbit, decide_eq_true (by omega), Bool.true_and]

/-! ### PACK and UNPACK (R165, R170) -/

/-- Settles O14: the two checks as for every command that reads RAW; the success writes the packed row from cell 0. -/
theorem packRule : Obligations.PackRule := by
  refine ⟨rfl, fun s => ⟨widthChecked_of_conclude rfl, pixelsChecked_of_conclude rfl, fun hw p hp hr => ?_⟩⟩
  have hlen : (packRow p).length = scanlineBytes s.width.toNat := by rw [packRow_length, hp.1]
  exact ⟨Memory.writeList s.pbm 0 (packRow p), execPack_of_row hw hp hr, holdsRow_writeList s.pbm _, hlen,
    keepsFrom_writeList s.pbm hlen.le⟩

/-- Settles O15: the width check as for every command; the success writes the unpacked row from cell 0. -/
theorem unpackRule : Obligations.UnpackRule := by
  refine ⟨rfl, fun s => ⟨widthChecked_of_conclude rfl, fun hw bytes hl hb => ?_⟩⟩
  have hlen := unpackRow_length bytes s.width.toNat
  exact ⟨Memory.writeList s.raw 0 (unpackRow bytes s.width.toNat), execUnpack_of_bytes hw hl hb,
    holdsRow_writeList s.raw _, hlen, keepsFrom_writeList s.raw hlen.le⟩

/-! ### Two commands, one after the other (R175, R176) -/

/-- Settles O33: PACK leaves the packed row, which UNPACK unpacks to the row. -/
theorem packThenUnpackRestores : Obligations.PackThenUnpackRestores := by
  intro s p hw hp hr
  refine ⟨_, _, execPack_of_row (s := issue 0x00000006#32 s) hw hp hr, rfl,
    execUnpack_of_bytes (bytes := packRow p) hw ?_ (holdsRow_writeList s.pbm _), rfl, ?_⟩
  · rw [packRow_length, hp.1]
    rfl
  · have hrow : HoldsRow (Memory.writeList s.raw 0 (unpackRow (packRow p) s.width.toNat)) p := by
      rw [unpackRow_packRow hp]
      exact holdsRow_writeList s.raw p
    exact hrow

/-- Settles O34: UNPACK leaves a valid RAW row, and PACK writes the bytes packed from it. -/
theorem unpackThenPackNormalises : Obligations.UnpackThenPackNormalises := by
  intro s bytes hw hl hb
  refine ⟨_, _, execUnpack_of_bytes (s := issue 0x00000007#32 s) hw hl hb,
    execPack_of_row (p := unpackRow bytes s.width.toNat) hw (validRaw_unpackRow bytes _) (holdsRow_writeList s.raw _),
    fun j hj => ?_⟩
  have hj' : j < scanlineBytes (unpackRow bytes s.width.toNat).length := by
    rw [unpackRow_length]
    exact hj.trans_eq hl
  have hnew : Memory.read (Memory.writeList s.pbm 0 (packRow (unpackRow bytes s.width.toNat))) j =
      some (packByte (unpackRow bytes s.width.toNat) j) := by
    rw [holdsRow_writeList s.pbm _ j (by rwa [packRow_length]), packRow_getElem? hj']
  have hold : bytes[j]? = some (bytes.getD j 0#8) := by
    rw [List.getD_eq_getElem _ _ hj, List.getElem?_eq_getElem hj]
  exact ⟨_, _, hold, hnew, fun hlast => packByte_unpackRow_full bytes (by omega),
    fun b hbit => packByte_unpackRow_getLsbD bytes s.width.toNat j hbit⟩

end Sys2Proof.Machine
end

section
/-! PROOFS. The family of 60_exceptions: transactions that fault (R200), a completion with an error (R192), issue
(R204), the interrupt output (R207). -/

namespace Sys2Proof.Machine

/-! ### Completion (R192, R205) -/

/-- A completion is that of an error, or a success, which writes the buffers, RESULT and ACCESS_COUNT at most. -/
theorem engineStep_cases {s t : State} (h : engineStep s = .next t) :
    (∃ e n, t = completeError e n s) ∨
    t = { s with raw := t.raw, rle := t.rle, pbm := t.pbm, result := t.result, acount := t.acount, busy := false,
                 done := true } := by
  rcases engineStep_next h with ⟨e, n, -, ht⟩ | ⟨i, -, hexec⟩
  · exact .inl ⟨e, n, ht⟩
  · rcases exec_next i hexec with ⟨e, n, -, ht⟩ | ⟨n, count, -, ht, -⟩
    · exact .inl ⟨e, n, ht⟩
    · right
      rw [ht]

/-- Settles O21: a success leaves ERRCODE 0, so the completion is that of an error, which changes these four alone. -/
theorem failedCommandChangesNothingElse : Obligations.FailedCommandChangesNothingElse := by
  intro s t h0 h herr
  rcases engineStep_cases h with ⟨e, n, rfl⟩ | ht
  · rfl
  · have hcode : t.errcode = s.errcode := by rw [ht]
    exact absurd (hcode.trans h0) herr

/-- Every completion sets DONE and leaves IE. -/
theorem engineStep_ie_done {s t : State} (h : engineStep s = .next t) : t.ie = s.ie ∧ t.done = true := by
  rcases engineStep_cases h with ⟨e, n, rfl⟩ | ht
  · exact ⟨completeError_ie e n s, completeError_done e n s⟩
  · rw [ht]
    exact ⟨rfl, rfl⟩

/-! ### Transactions that fault (R200) -/

/-- A transaction inside the window of a wrong size, misaligned or to an unmapped offset is a bus error. -/
theorem busDecode_busErr {p : Params} {off n : Nat} (hin : off < 4 * p.stride)
    (h : n ≠ 4 ∨ off % 4 ≠ 0 ∨ targetAt p off = none) : busDecode p (p.base + off) n = .busErr := by
  rcases h with hsize | halign | hunmapped
  · unfold busDecode
    rw [if_neg (by omega), if_pos hsize]
  · unfold busDecode
    rw [if_neg (by omega), Nat.add_sub_cancel_left, if_pos halign, ite_self]
  · exact busDecode_unmapped n hin hunmapped

theorem laneWord_error {b : Buffer} {cap m : Nat} {cells : List Host.Cell} {f : Fault}
    (h : laneWord b cap cells m = .error f) : ∃ index, f = .hostReadUninitialised b index := by
  unfold laneWord at h
  split at h
  · cases h
  all_goals cases h; exact ⟨_, rfl⟩

theorem elementWord_error {rle : List (Nat × Word)} {i : Nat} {f : Fault} (h : elementWord rle i = .error f) :
    f = .hostReadUninitialised .rle i := by
  unfold elementWord at h
  split at h <;> cases h
  rfl

/-- A read of a buffer word faults only while BUSY = 0, with the fault of the word. -/
theorem busRead_buffer_fault {busy : Bool} {word : Except Fault Word} {f : Fault}
    (h : (if busy then BusRead.anyValue else .ofExcept word) = .fault f) : word = .error f := by
  cases busy with
  | true => cases h
  | false =>
    cases word with
    | ok v => cases h
    | error g => cases h; rfl

/-- A read that reaches a target faults only at an uninitialised cell (70_reset R232 a). -/
theorem readTarget_fault {target : BusTarget} {s : State} {f : Fault} (h : readTarget target s = .fault f) :
    ∃ b index, f = .hostReadUninitialised b index := by
  cases target with
  | id | caps | stride | ctrl | cmd | status | width | result | errinfo => cases h
  | accessCount =>
    simp only [readTarget] at h
    split at h <;> cases h
  | raw m => exact ⟨.raw, laneWord_error (busRead_buffer_fault h)⟩
  | rle i => exact ⟨.rle, i, elementWord_error (busRead_buffer_fault h)⟩
  | pbm m => exact ⟨.pbm, laneWord_error (busRead_buffer_fault h)⟩

theorem memRead_hit_ne_busError {s : State} {addr n : Nat} {target : BusTarget} (t : Fin 16)
    (hd : busDecode s.params addr n = .hit target) : memRead addr n t s ≠ .fault .busError := by
  intro h
  simp only [memRead, hd] at h
  split at h
  · cases h
  · cases h
  · next f hf =>
    obtain ⟨b, index, rfl⟩ := readTarget_fault hf
    cases h

/-- Settles O40: each of the three causes decodes as a bus error; any other transaction reaches a target, where a
write answers and a read faults at most at an uninitialised cell. -/
theorem badTransactionsFault : Obligations.BadTransactionsFault := by
  intro s off n v t hin
  refine ⟨fun hbad => ?_, ?_⟩
  · have hd := busDecode_busErr hin hbad
    exact ⟨by simp only [memWrite, hd], by simp only [memRead, hd]⟩
  · rintro rfl halign hmapped
    obtain ⟨target, ht⟩ := Option.ne_none_iff_exists'.1 hmapped
    have hd := busDecode_target hin halign ht
    exact ⟨⟨_, memWrite_hit v hd⟩, memRead_hit_ne_busError t hd⟩

/-! ### Issue (R204) -/

theorem irq_issue (v : Word) (s : State) : irq (issue v s) = false := Bool.and_false s.ie

/-- A write to CMD while BUSY = 1 is dropped (70_reset R240). -/
theorem memWrite_cmd_busy {s : State} (v : Word) (hbusy : s.busy = true) :
    memWrite (s.params.base + 0x10) 4 v s = .next (dropWrite s) := by
  have hcmd : registerAt 0x10 = some .cmd := rfl
  rw [memWrite_register v hcmd]
  exact congrArg _ (writeIdle_busy hbusy)

/-- Settles O35: while BUSY = 0 the write is `issue`, while BUSY = 1 it is dropped. -/
theorem issueEffects : Obligations.IssueEffects := fun s v =>
  ⟨fun hidle => ⟨issue v s, memWrite_cmd_idle v hidle, rfl, irq_issue v s⟩, memWrite_cmd_busy v⟩

/-! ### The interrupt output (R207) -/

theorem irq_writeCtrl (v : Word) (s : State) :
    irq (writeCtrl v s) = (!v.getLsbD 1 && v.getLsbD 0 && s.done) := by
  cases hsrst : v.getLsbD 1 with
  | true => rw [writeCtrl_softResets s hsrst]; rfl
  | false => rw [writeCtrl_setsIe s hsrst]; rfl

theorem irq_writeStatus (v : Word) (s : State) : irq (writeStatus v s) = (irq s && !v.getLsbD 1) :=
  (Bool.and_assoc s.ie s.done (!v.getLsbD 1)).symm

/-- Settles O53: `irq` after each event is IE AND DONE of the state that the event leaves. -/
theorem interruptOutput : Obligations.InterruptOutput := by
  refine ⟨fun s => Bool.and_eq_true_iff, fun s t h => ?_, fun s t v h => ?_, fun s t v hidle h => ?_,
    fun s t v h => ?_, fun s => rfl⟩
  · obtain ⟨hie, hdone⟩ := engineStep_ie_done h
    rw [irq, hie, hdone, Bool.and_true]
  · have hctrl : registerAt 0x0C = some .ctrl := rfl
    cases (memWrite_register v hctrl).symm.trans h
    exact irq_writeCtrl v s
  · cases (memWrite_cmd_idle v hidle).symm.trans h
    exact irq_issue v s
  · have hstatus : registerAt 0x14 = some .status := rfl
    cases (memWrite_register v hstatus).symm.trans h
    exact irq_writeStatus v s

end Sys2Proof.Machine
end

section
/-! PROOFS. The family of 70_reset_and_hazards: what the soft reset (R231) and the power-on reset (R230) leave of the
registers, the buffers and the HOST's side. -/

namespace Sys2Proof.Machine

/-! ### What both resets do to the registers (R230, R231) -/

theorem registersReset_clearRegisters (s : State) : RegistersReset (clearRegisters s) :=
  ⟨rfl, rfl, rfl, rfl, rfl, rfl, rfl, rfl, rfl, rfl⟩

/-- With the registers at their reset values IE is 0, so `irq` is low. -/
theorem irq_of_registersReset {s : State} (h : RegistersReset s) : irq s = false := by
  obtain ⟨hie, _⟩ := h
  rw [irq, hie, Bool.false_and]

theorem registersReset_softReset (s : State) : RegistersReset (softReset s) :=
  registersReset_clearRegisters _

theorem sameOutside_softReset (s : State) : SameOutside s (softReset s) :=
  ⟨softReset_params s, softReset_program s, softReset_hostPc s, softReset_scratch s⟩

/-! ### The cells of an aborted command (R231) -/

/-- A row written from cell 0 initialises its cells. -/
theorem allInitialised_writeList {n : Nat} (m : List (Nat × BitVec n)) (row : List (BitVec n)) :
    AllInitialised row.length (Memory.writeList m 0 row) := by
  intro j hj
  rw [holdsRow_writeList m row j hj, List.getElem?_eq_getElem hj, Option.isSome_some]

/-- `k` free values written from cell 0 initialise the first `k` cells and keep the others. -/
theorem writeList_drawn_initialises {n : Nat} (m : List (Nat × BitVec n)) (free : Nat → BitVec n) (draws k : Nat) :
    AllInitialised k (Memory.writeList m 0 (drawn free draws k)) ∧
      KeepsFrom m (Memory.writeList m 0 (drawn free draws k)) k := by
  have hlen : (drawn free draws k).length = k := drawn_length free draws k
  have hinit := allInitialised_writeList m (drawn free draws k)
  rw [hlen] at hinit
  exact ⟨hinit, keepsFrom_writeList m hlen.le⟩

section
variable {s : State} {n : Nat}

theorem softReset_idle (hidle : s.busy = false) : softReset s = clearRegisters s := by
  rw [softReset_eq, hidle]
  rfl

theorem softReset_inFlight (hbusy : s.busy = true) : softReset s = clearRegisters (abortCells s) := by
  rw [softReset_eq, if_pos hbusy]

theorem abortCells_noDest (hdest : destCells (decode s.lcmd) s.params s.width.toNat = none) : abortCells s = s := by
  simp only [abortCells, hdest]

theorem softReset_abortsRaw (hbusy : s.busy = true)
    (hdest : destCells (decode s.lcmd) s.params s.width.toNat = some (.raw, n)) :
    AllInitialised n (softReset s).raw ∧ KeepsFrom s.raw (softReset s).raw n ∧
      (softReset s).rle = s.rle ∧ (softReset s).pbm = s.pbm := by
  obtain ⟨hinit, hkeep⟩ := writeList_drawn_initialises s.raw Config.freeByte s.draws n
  simp only [softReset_inFlight hbusy, abortCells, hdest]
  exact ⟨hinit, hkeep, rfl, rfl⟩

theorem softReset_abortsRle (hbusy : s.busy = true)
    (hdest : destCells (decode s.lcmd) s.params s.width.toNat = some (.rle, n)) :
    AllInitialised n (softReset s).rle ∧ KeepsFrom s.rle (softReset s).rle n ∧
      (softReset s).raw = s.raw ∧ (softReset s).pbm = s.pbm := by
  obtain ⟨hinit, hkeep⟩ := writeList_drawn_initialises s.rle Config.freeElement s.draws n
  simp only [softReset_inFlight hbusy, abortCells, hdest]
  exact ⟨hinit, hkeep, rfl, rfl⟩

theorem softReset_abortsPbm (hbusy : s.busy = true)
    (hdest : destCells (decode s.lcmd) s.params s.width.toNat = some (.pbm, n)) :
    AllInitialised n (softReset s).pbm ∧ KeepsFrom s.pbm (softReset s).pbm n ∧
      (softReset s).raw = s.raw ∧ (softReset s).rle = s.rle := by
  obtain ⟨hinit, hkeep⟩ := writeList_drawn_initialises s.pbm Config.freeByte s.draws n
  simp only [softReset_inFlight hbusy, abortCells, hdest]
  exact ⟨hinit, hkeep, rfl, rfl⟩

/-- An aborted command with no destination leaves the buffers as they were. -/
theorem softReset_noDest (hbusy : s.busy = true)
    (hdest : destCells (decode s.lcmd) s.params s.width.toNat = none) :
    (softReset s).raw = s.raw ∧ (softReset s).rle = s.rle ∧ (softReset s).pbm = s.pbm := by
  rw [softReset_inFlight hbusy, abortCells_noDest hdest]
  exact ⟨rfl, rfl, rfl⟩

end

/-- Settles O51: the write is `softReset`; the buffers are those of the case of `destCells` that the command in
flight selects. -/
theorem softResetEffects : Obligations.SoftResetEffects := by
  intro s v hsrst
  have hctrl : registerAt 0x0C = some .ctrl := rfl
  have hwrite : memWrite (s.params.base + 0x0C) 4 v s = .next (softReset s) :=
    (memWrite_register v hctrl).trans (congrArg _ (writeCtrl_softResets s hsrst))
  refine ⟨softReset s, hwrite, registersReset_softReset s, sameOutside_softReset s, fun hidle => ?_,
    fun hbusy hd => ?_, fun hbusy hd => ?_, fun hbusy hd => ?_, fun hbusy hd => ?_⟩
  · rw [softReset_idle hidle]
    exact ⟨rfl, rfl, rfl⟩
  · exact softReset_abortsRle hbusy (by rw [hd]; rfl)
  · rcases hd with hd | hd <;> exact softReset_abortsRaw hbusy (by rw [hd]; rfl)
  · exact softReset_abortsPbm hbusy (by rw [hd]; rfl)
  · rcases hd with hd | hd | hd | hd <;> exact softReset_noDest hbusy (by rw [hd]; rfl)

/-! ### Power-on reset (R230) -/

theorem registersReset_powerOnReset (s : State) : RegistersReset (powerOnReset s) :=
  registersReset_clearRegisters s

theorem registersReset_resetWith (p : Params) : RegistersReset (State.resetWith p) :=
  ⟨rfl, rfl, rfl, rfl, rfl, rfl, rfl, rfl, rfl, rfl⟩

/-- A state whose three buffers list no cell has none initialised. -/
theorem nothingInitialised_of_nil {s : State} (hraw : s.raw = []) (hrle : s.rle = []) (hpbm : s.pbm = []) :
    NothingInitialised s := by
  intro j
  rw [hraw, hrle, hpbm]
  exact ⟨rfl, rfl, rfl⟩

/-- Settles O52: both resets leave the registers at their reset values and the three buffers with no cell listed. -/
theorem powerOnResetEffects : Obligations.PowerOnResetEffects := by
  refine ⟨fun p => ?_, fun s => ⟨powerOnReset s, rfl, ?_⟩⟩
  · have hreg := registersReset_resetWith p
    exact ⟨hreg, nothingInitialised_of_nil rfl rfl rfl, irq_of_registersReset hreg, rfl⟩
  · have hreg := registersReset_powerOnReset s
    exact ⟨hreg, nothingInitialised_of_nil rfl rfl rfl, irq_of_registersReset hreg⟩

end Sys2Proof.Machine
end

section
/-! PROOFS. What one HOST step can do, event by event (00_scope R15; 20_memory R71), and the three invariants of the
state (10_state R27, R30, R34 to R36; 60_exceptions R191, R204, R206), each packaged as one induction step. -/

namespace Sys2Proof.Machine

/-! ### What one line of the HOST's program can do -/

/-- A line moves the HOST's own side, writes a target of the block, or resets it (70_reset R230). -/
theorem runHostOp_next {op : HostOp} {s t : State} (h : runHostOp op s = .next t) :
    t = { s with hostPc := t.hostPc, scratch := t.scratch, draws := t.draws } ∨
    (∃ addr target v, busDecode s.params addr 4 = .hit target ∧
      (op = .memWrite addr 4 v ∨ ∃ off, addr = s.params.base + off ∧ op = .wr off v) ∧
      t = writeTarget target v s) ∨
    (op = .powerOnReset ∧ t = powerOnReset s) := by
  cases op with
  | wr off v =>
    obtain ⟨target, hd, ht⟩ := memWrite_next h
    exact .inr (.inl ⟨_, target, v, hd, .inr ⟨off, rfl, rfl⟩, ht⟩)
  | memWrite addr n v =>
    obtain ⟨target, hd, ht⟩ := memWrite_next h
    obtain ⟨rfl, -⟩ := busDecode_hit hd
    exact .inr (.inl ⟨addr, target, v, hd, .inl rfl, ht⟩)
  | rd off r =>
    obtain ⟨v, d, rfl, -⟩ := memRead_next h
    exact .inl rfl
  | memRead addr n r =>
    obtain ⟨v, d, rfl, -⟩ := memRead_next h
    exact .inl rfl
  | bnz r mask label | bz r mask label =>
    cases h
    left
    split <;> rfl
  | halt => cases h; exact .inl rfl
  | powerOnReset => cases h; exact .inr (.inr ⟨rfl, rfl⟩)

/-- A HOST step leaves the state, the HOST having ended, or runs the line at `hostPc`. -/
theorem hostStep_line {s t : State} (h : hostStep s = .next t) :
    (hostEnded s = true ∧ t = s) ∨
    ∃ op, s.program[s.hostPc]? = some op ∧ runHostOp op (hostAdvance s) = .next t := by
  unfold hostStep at h
  split at h
  · next hp => cases h; exact .inl ⟨by simp only [hostEnded, hp], rfl⟩
  · next hp => cases h; exact .inl ⟨by simp only [hostEnded, hp], rfl⟩
  · next op _ hp => exact .inr ⟨op, hp, h⟩

/-- A HOST step moves the HOST's own side, is a write by the HOST's line, or is the power-on reset by it. -/
theorem hostStep_events {s t : State} (h : hostStep s = .next t) :
    t = { s with hostPc := t.hostPc, wait := t.wait, scratch := t.scratch, draws := t.draws } ∨
    (∃ target v, HostWrites s target v ∧ t = writeTarget target v (hostAdvance s)) ∨
    (s.program[s.hostPc]? = some .powerOnReset ∧ t = powerOnReset (hostAdvance s)) := by
  rcases hostStep_line h with ⟨-, rfl⟩ | ⟨op, hp, hop⟩
  · exact .inl rfl
  · rcases runHostOp_next hop with ht | ⟨addr, target, v, hd, hline, ht⟩ | ⟨rfl, ht⟩
    · left
      rw [ht]
      rfl
    · refine .inr (.inl ⟨target, v, ⟨addr, hd, ?_⟩, ht⟩)
      rcases hline with rfl | ⟨off, haddr, rfl⟩
      · exact .inl hp
      · exact .inr ⟨off, haddr, hp⟩
    · exact .inr (.inr ⟨hp, ht⟩)

/-! ### Invariants -/

/-- A predicate that a completion, a move of the HOST's own side, a write that reaches a target and the power-on
reset keep is kept by every step. -/
theorem step_keeps {P : State → Prop}
    (hengine : ∀ s t, P s → engineStep s = .next t → P t)
    (hhost : ∀ s pc w sc d, P s → P { s with hostPc := pc, wait := w, scratch := sc, draws := d })
    (hwrite : ∀ s target off v, P s → targetAt s.params off = some target → P (writeTarget target v s))
    (hreset : ∀ s, P s → P (powerOnReset s)) {s t : State} (hs : P s) (h : step s = .next t) : P t := by
  have hadvance : P (hostAdvance s) := hhost s _ _ _ _ hs
  rcases step_next h with ⟨-, he⟩ | ⟨-, hh⟩ | rfl
  · exact hengine s t hs he
  · rcases hostStep_events hh with ht | ⟨target, v, ⟨addr, hd, -⟩, rfl⟩ | ⟨-, rfl⟩
    · rw [ht]
      exact hhost s _ _ _ _ hs
    · obtain ⟨-, -, -, -, htarget⟩ := busDecode_hit hd
      exact hwrite _ target _ v hadvance htarget
    · exact hreset _ hadvance
  · exact hs

/-! ### Canonical buffers -/

theorem exec_canonical {i : Instr} {s t : State} (hs : MemoryCanonical s) (h : exec i s = .next t) :
    MemoryCanonical t := by
  have hp := exec_params h
  obtain ⟨hraw, hrle, hpbm⟩ := hs
  rcases exec_next i h with ⟨e, n, -, rfl⟩ | ⟨-, -, -, -, hcells⟩
  · exact ⟨hraw, hrle, hpbm⟩
  · rw [MemoryCanonical, hp]
    rcases hcells with ⟨h1, h2, h3⟩ | ⟨row, hrow, h1, h2, h3⟩ | ⟨row, hrow, h2, h1, h3⟩ | ⟨row, hrow, h3, h1, h2⟩ <;>
      rw [h1, h2, h3]
    · exact ⟨hraw, hrle, hpbm⟩
    · exact ⟨Memory.wf_writeList (by omega) hraw, hrle, hpbm⟩
    · exact ⟨hraw, Memory.wf_writeList (by omega) hrle, hpbm⟩
    · exact ⟨hraw, hrle, Memory.wf_writeList (by omega) hpbm⟩

theorem engineStep_canonical {s t : State} (hs : MemoryCanonical s) (h : engineStep s = .next t) :
    MemoryCanonical t := by
  rcases engineStep_next h with ⟨e, n, -, rfl⟩ | ⟨i, -, hi⟩
  · exact hs
  · exact exec_canonical hs hi

/-- Settles O57: a completion writes a row within its buffer's capacity, a host write stores no padding lane, and the
power-on reset empties the buffers. -/
theorem stepKeepsMemoryCanonical : Obligations.StepKeepsMemoryCanonical := fun _ _ =>
  step_keeps (P := MemoryCanonical) (fun _ _ => engineStep_canonical) (fun _ _ _ _ _ hs => hs)
    (fun _ _ _ v hs ht => writeTarget_canonical v ht hs) (fun _ _ => ⟨Memory.wf_nil, Memory.wf_nil, Memory.wf_nil⟩)

/-! ### Consistent completion fields -/

section
variable {s u : State} (h : SameButWritten s u)
include h

theorem SameButWritten.busy : u.busy = s.busy := by
  unfold SameButWritten at h
  rw [h]

theorem SameButWritten.errcode : u.errcode = s.errcode := by
  unfold SameButWritten at h
  rw [h]

theorem SameButWritten.errinfo : u.errinfo = s.errinfo := by
  unfold SameButWritten at h
  rw [h]

theorem SameButWritten.result : u.result = s.result := by
  unfold SameButWritten at h
  rw [h]

theorem SameButWritten.lcmd : u.lcmd = s.lcmd := by
  unfold SameButWritten at h
  rw [h]

theorem SameButWritten.wait : u.wait = s.wait := by
  unfold SameButWritten at h
  rw [h]

end

theorem statusConsistent_completeError (e : CmdError) (n : Nat) (s : State) :
    StatusConsistent (completeError e n s) :=
  ⟨e.code_le, fun h0 => absurd h0 e.code_ne_zero, nofun⟩

theorem engineStep_statusConsistent {s t : State} (hs : StatusConsistent s) (h : engineStep s = .next t) :
    StatusConsistent t := by
  obtain ⟨hcode, hinfo, -⟩ := hs
  rcases engineStep_cases h with ⟨e, n, rfl⟩ | ht
  · exact statusConsistent_completeError e n s
  · rw [ht]
    exact ⟨hcode, hinfo, nofun⟩

/-- A state whose completion fields are clear is consistent, whatever BUSY is. -/
theorem statusConsistent_of_clear {s : State} (hdone : s.done = false) (hcode : s.errcode = 0#4)
    (hinfo : s.errinfo = 0#32) : StatusConsistent s :=
  ⟨by rw [hcode]; decide, fun _ => hinfo, fun _ => ⟨hdone, hcode, hinfo⟩⟩

theorem writeTarget_statusConsistent (target : BusTarget) (v : Word) {s : State} (hs : StatusConsistent s) :
    StatusConsistent (writeTarget target v s) := by
  obtain ⟨hcode, hinfo, hflight⟩ := hs
  rcases writeTarget_cases target v s with ⟨hsame, hdone, -⟩ | ⟨-, -, hu⟩ | ⟨-, -, hu⟩
  · have hb : (writeTarget target v s).busy = s.busy := hsame.busy
    have he : (writeTarget target v s).errcode = s.errcode := hsame.errcode
    have hi : (writeTarget target v s).errinfo = s.errinfo := hsame.errinfo
    rw [StatusConsistent, hb, he, hi]
    exact ⟨hcode, hinfo, fun hbusy => ⟨hdone (hflight hbusy).1, (hflight hbusy).2⟩⟩
  · rw [hu]
    exact statusConsistent_of_clear rfl rfl rfl
  · rw [hu]
    exact statusConsistent_of_clear rfl rfl rfl

/-- Settles O58: an error has a code of the table; an issue and a reset clear the fields; no other write changes
ERRCODE or ERRINFO, or sets DONE. -/
theorem stepKeepsStatusConsistent : Obligations.StepKeepsStatusConsistent := fun _ _ =>
  step_keeps (P := StatusConsistent) (fun _ _ => engineStep_statusConsistent) (fun _ _ _ _ _ hs => hs)
    (fun _ target _ v hs _ => writeTarget_statusConsistent target v hs)
    (fun _ _ => statusConsistent_of_clear rfl rfl rfl)

/-! ### Bounded counts -/

theorem toU32_toNat_le (n : Nat) : (toU32 n).toNat ≤ n := by
  rw [toU32, BitVec.toNat_ofNat]
  exact Nat.mod_le n _

theorem completeError_countsBounded (e : CmdError) {n : Nat} {s : State} (hs : CountsBounded s)
    (hn : n ≤ s.params.rleCap) : CountsBounded (completeError e n s) :=
  ⟨hs.1, (toU32_toNat_le n).trans hn⟩

theorem engineStep_countsBounded {s t : State} (hs : CountsBounded s) (h : engineStep s = .next t) :
    CountsBounded t := by
  rcases engineStep_next h with ⟨e, n, hn, rfl⟩ | ⟨i, -, hi⟩
  · exact completeError_countsBounded e hs hn
  · rcases exec_next i hi with ⟨e, n, hn, rfl⟩ | ⟨n, count, hn, ht, -⟩
    · exact completeError_countsBounded e hs hn
    · rw [ht]
      exact ⟨(toU32_toNat_le n).trans hn, hs.2⟩

theorem writeTarget_countsBounded (target : BusTarget) (v : Word) {s : State} (hs : CountsBounded s) :
    CountsBounded (writeTarget target v s) := by
  rw [CountsBounded, writeTarget_params]
  rcases writeTarget_cases target v s with ⟨hsame, -, -⟩ | ⟨-, -, hu⟩ | ⟨-, -, hu⟩
  · have hr : (writeTarget target v s).result = s.result := hsame.result
    have hi : (writeTarget target v s).errinfo = s.errinfo := hsame.errinfo
    rw [hr, hi]
    exact hs
  · rw [hu]
    exact ⟨hs.1, Nat.zero_le _⟩
  · rw [hu]
    exact ⟨Nat.zero_le _, Nat.zero_le _⟩

/-- Settles O59: RESULT and ERRINFO are counts and indices within RLE_CAP, and what a write or a reset does to them is
to clear them. -/
theorem stepKeepsCountsBounded : Obligations.StepKeepsCountsBounded := fun _ _ =>
  step_keeps (P := CountsBounded) (fun _ _ => engineStep_countsBounded) (fun _ _ _ _ _ hs => hs)
    (fun _ target _ v hs _ => writeTarget_countsBounded target v hs)
    (fun _ _ => ⟨Nat.zero_le _, Nat.zero_le _⟩)

/-- Settles O56: after reset the buffers are empty and every field that the invariants speak of is 0. -/
theorem resetMeetsInvariants : Obligations.ResetMeetsInvariants :=
  ⟨fun _ => ⟨⟨Memory.wf_nil, Memory.wf_nil, Memory.wf_nil⟩, statusConsistent_of_clear rfl rfl rfl,
    Nat.zero_le _, Nat.zero_le _⟩, by decide⟩

end Sys2Proof.Machine
end

section
/-! PROOFS. What every command does whatever its kind: its register frame (60_exceptions R209, R210), when it stops
(60_exceptions R190; 70_reset R232 b), and what it adds to ACCESS_COUNT (60_exceptions R214). -/

namespace Sys2Proof.Machine

/-! ### The register frame (R209, R210) -/

/-- Settles O22: an error writes ERRCODE and ERRINFO, a success the buffers, RESULT and ACCESS_COUNT, and both BUSY
and DONE. -/
theorem commandRegisterFrame : Obligations.CommandRegisterFrame := by
  intro i s t h
  rcases exec_next i h with ⟨e, n, -, rfl⟩ | ⟨n, count, -, ht, -⟩
  · rfl
  · rw [ht]

theorem exec_busy_done {i : Instr} {s t : State} (h : exec i s = .next t) : t.busy = false ∧ t.done = true := by
  rw [commandRegisterFrame i s t h]
  exact ⟨rfl, rfl⟩

/-! ### When a command stops (R190, R232 b) -/

theorem exec_not_refused (i : Instr) (s : State) (r : Refusal) : exec i s ≠ .refused r := by
  cases i <;> exact conclude_not_refused s _ r

/-- A command whose checks fault faults as they do, and in no other way. -/
theorem conclude_eq_fault_iff {α : Type} {s : State} {r : CmdResult α} {f : α → Commit} {flt : Fault} :
    conclude s (r.bind fun a => .ok (f a)) = .fault flt ↔ r = .fault flt := by
  constructor
  · intro h
    rcases CmdResult.bind_eq_fault.1 (conclude_fault h) with hr | ⟨a, -, ha⟩
    · exact hr
    · cases ha
  · rintro rfl
    rfl

/-- `check_width` itself reads no cell. -/
theorem afterWidth_fault {α : Type} {s : State} {check : Nat → CmdResult α} {flt : Fault}
    (h : afterWidth s check = .fault flt) : LegalWidth s ∧ check s.width.toNat = .fault flt := by
  unfold afterWidth at h
  rcases checkWidth_cases s with ⟨-, hc⟩ | ⟨-, hc⟩ | ⟨hw, hc⟩ <;> rw [hc] at h
  · cases h
  · cases h
  · exact ⟨hw, h⟩

/-- What `Obligations.CommandsStopOnlyAtUninitialisedCells` says of a fault: the cell that it names. -/
def NamesUninitialisedCell (s : State) (f : Fault) : Prop :=
  (∃ j, f = .commandReadUninitialised .raw j ∧ j < s.params.rawCap ∧ Memory.read s.raw j = none) ∨
  (∃ j, f = .commandReadUninitialised .rle j ∧ j < s.params.rleCap ∧ Memory.read s.rle j = none) ∨
  (∃ j, f = .commandReadUninitialised .pbm j ∧ j < s.params.pbmCap ∧ Memory.read s.pbm j = none)

section
variable {s : State} {f : Fault}

theorem namesUninitialisedCell_checkRaw (h : afterWidth s (checkRaw s.raw 0) = .fault f) :
    NamesUninitialisedCell s f := by
  obtain ⟨hw, hc⟩ := afterWidth_fault h
  obtain ⟨j, hf, hj, hread⟩ := checkRaw_fault hc
  exact .inl ⟨j, hf, by simp only [Params.rawCap]; omega, hread⟩

theorem namesUninitialisedCell_checkRle (h : afterWidth s (checkRle s) = .fault f) :
    NamesUninitialisedCell s f := by
  obtain ⟨-, hc⟩ := afterWidth_fault h
  exact .inr (.inl (checkRle_fault hc))

theorem namesUninitialisedCell_readScanline (h : afterWidth s (readScanline s) = .fault f) :
    NamesUninitialisedCell s f := by
  obtain ⟨hw, hc⟩ := afterWidth_fault h
  obtain ⟨j, hf, hj, hread⟩ := readPbm_fault hc
  exact .inr (.inr ⟨j, hf, by simp only [scanlineBytes, Params.pbmCap] at hj ⊢; omega, hread⟩)

theorem namesUninitialisedCell_scanSentinel (h : scanSentinel s = .fault f) : NamesUninitialisedCell s f := by
  rcases scanSentinel_cases s with ⟨i, hi, -⟩ | hn | ⟨j, hj, hcell⟩
  · cases hi.symm.trans h
  · cases hn.symm.trans h
  · cases hj.symm.trans h
    exact .inr (.inl ⟨j, rfl, hcell⟩)

theorem namesUninitialisedCell_exec {i : Instr} (h : exec i s = .fault f) : NamesUninitialisedCell s f := by
  cases i with
  | runcount => exact namesUninitialisedCell_checkRaw (conclude_eq_fault_iff.1 (exec_runcount_eq s ▸ h))
  | compress => exact namesUninitialisedCell_checkRaw (conclude_eq_fault_iff.1 (exec_compress_eq s ▸ h))
  | decompress => exact namesUninitialisedCell_checkRle (conclude_eq_fault_iff.1 (exec_decompress_eq s ▸ h))
  | sizeof => exact namesUninitialisedCell_scanSentinel (conclude_eq_fault_iff.1 (exec_sizeof_eq s ▸ h))
  | runsof => exact namesUninitialisedCell_scanSentinel (conclude_eq_fault_iff.1 (exec_runsof_eq s ▸ h))
  | pack => exact namesUninitialisedCell_checkRaw (conclude_eq_fault_iff.1 (exec_pack_eq s ▸ h))
  | unpack => exact namesUninitialisedCell_readScanline (conclude_eq_fault_iff.1 (exec_unpack_eq s ▸ h))

end

/-- Settles O19: a command faults where its checks do, and each check faults at a cell that it reads. -/
theorem commandsStopOnlyAtUninitialisedCells : Obligations.CommandsStopOnlyAtUninitialisedCells :=
  fun i s => ⟨exec_not_refused i s, fun _ => namesUninitialisedCell_exec⟩

theorem not_uninitialised {n cap j : Nat} {m : List (Nat × BitVec n)} (h : AllInitialised cap m) (hj : j < cap) :
    Memory.read m j ≠ none :=
  Option.isSome_iff_ne_none.1 (h j hj)

/-- Settles O20: a command that neither refuses nor meets an uninitialised cell answers a next state. -/
theorem initialisedBuffersAlwaysComplete : Obligations.InitialisedBuffersAlwaysComplete := by
  intro i s hraw hrle hpbm
  cases h : exec i s with
  | next t => exact ⟨t, rfl, exec_busy_done h⟩
  | fault f =>
    rcases namesUninitialisedCell_exec h with ⟨j, -, hj, hread⟩ | ⟨j, -, hj, hread⟩ | ⟨j, -, hj, hread⟩
    · exact absurd hread (not_uninitialised hraw hj)
    · exact absurd hread (not_uninitialised hrle hj)
    · exact absurd hread (not_uninitialised hpbm hj)
  | refused r => exact absurd h (exec_not_refused i s r)

/-! ### Which cell a fault names (R232 b) -/

section
variable {s : State}

theorem afterWidth_checkRaw_uninitialised {c : Nat} (hw : LegalWidth s) (hc : c < s.width.toNat)
    (hbelow : LegalPixelsBelow s c) (hread : Memory.read s.raw c = none) :
    afterWidth s (checkRaw s.raw 0) = .fault (.commandReadUninitialised .raw c) := by
  rw [afterWidth_legal hw]
  have := checkRaw_of_uninitialised (c := 0) hc (fun d hd => by rw [Nat.zero_add]; exact hbelow d hd)
    (by rwa [Nat.zero_add])
  rwa [Nat.zero_add] at this

theorem afterWidth_readScanline_uninitialised {j : Nat} (hw : LegalWidth s) (hj : j < scanlineBytes s.width.toNat)
    (hbelow : AllInitialised j s.pbm) (hread : Memory.read s.pbm j = none) :
    afterWidth s (readScanline s) = .fault (.commandReadUninitialised .pbm j) := by
  rw [afterWidth_legal hw, readScanline]
  have := readPbm_of_uninitialised (c := 0) hj (fun d hd => by rw [Nat.zero_add]; exact hbelow d hd)
    (by rwa [Nat.zero_add])
  rwa [Nat.zero_add] at this

theorem checkRle_uninitialised_lead (w : Nat) (hread : Memory.read s.rle 0 = none) :
    checkRle s w = .fault (.commandReadUninitialised .rle 0) := by
  simp only [checkRle, hread]

/-- Accepted runs leave room for the cell after them. -/
theorem checkRle_uninitialised_after {v : Byte} {runs : List Nat} (hwf : s.params.wf = true) (hw : LegalWidth s)
    (hacc : AcceptedRuns s v runs) (hread : Memory.read s.rle (runs.length + 1) = none) :
    checkRle s s.width.toNat = .fault (.commandReadUninitialised .rle (runs.length + 1)) := by
  have ⟨_, hpos, hsum, _⟩ := hacc
  have hlen := length_le_sum hpos
  have hroom : s.params.rleCap - 1 - runs.length = (s.params.rleCap - 2 - runs.length) + 1 := by
    simp only [Params.rleCap]
    omega
  rw [checkRle_accept (width_lt_of_wf hwf hw) hw.2 hacc, hroom]
  simp only [checkRuns, hread, CmdResult.bind_fault]

end

/-- Settles O18: each command faults as its checks do, and they fault at the first uninitialised cell in their
order. -/
theorem uninitialisedCellFaultsCommand : Obligations.UninitialisedCellFaultsCommand := by
  intro s
  refine ⟨fun hw c hc hbelow hread i hi => ?_, fun hw j hj hbelow hread => ?_, fun j h1 hj hbelow hread => ?_,
    fun hw hread => ?_, fun hwf hw v runs hacc hread => ?_⟩
  · have hfault := afterWidth_checkRaw_uninitialised hw hc hbelow hread
    rcases hi with rfl | rfl | rfl
    · rw [exec_runcount_eq, hfault]; rfl
    · rw [exec_compress_eq, hfault]; rfl
    · rw [exec_pack_eq, hfault]; rfl
  · rw [exec_unpack_eq, afterWidth_readScanline_uninitialised hw hj hbelow hread]
    rfl
  · have hfault := scanSentinel_of_uninitialised h1 hj hbelow hread
    rw [exec_sizeof_eq, exec_runsof_eq, hfault]
    exact ⟨rfl, rfl⟩
  · rw [exec_decompress_eq, afterWidth_legal hw, checkRle_uninitialised_lead _ hread]
    rfl
  · rw [exec_decompress_eq, afterWidth_legal hw, checkRle_uninitialised_after hwf hw hacc hread]
    rfl

/-! ### The access counter (R214) -/

section
variable {s : State} (hw : LegalWidth s)
include hw

theorem readsTo_raw {i : Instr} {p : List Byte} (hi : i = .runcount ∨ i = .compress ∨ i = .pack)
    (hp : ValidRaw s.width.toNat p) (hr : HoldsRow s.raw p) : readsTo i s = s.width.toNat := by
  rcases hi with rfl | rfl | rfl <;> simp only [readsTo, checkWidth_legal hw, checkRaw_of_holds hp hr]

theorem readsTo_decompress {x : Byte × List Nat} (hx : checkRle s s.width.toNat = .ok x) :
    readsTo .decompress s = x.2.length + 2 := by
  simp only [readsTo, checkWidth_legal hw, hx]

theorem readsTo_unpack : readsTo .unpack s = scanlineBytes s.width.toNat := by
  simp only [readsTo, checkWidth_legal hw]

end

theorem readsTo_scan {i : Instr} {s : State} {j : Nat} (hi : i = .sizeof ∨ i = .runsof)
    (h : scanSentinel s = .ok j) : readsTo i s = j + 1 := by
  rcases hi with rfl | rfl <;> simp only [readsTo, h]

/-- What `Obligations.AccessCountCountsCells` says of one completion. -/
def CountsCells (i : Instr) (s t : State) : Prop :=
  (t.errcode = 0#4 → readsFrom i ≤ readsTo i s ∧
    t.acount = s.acount + toU32 (readsTo i s - readsFrom i + storedCells i s)) ∧
  (t.errcode ≠ 0#4 → t.acount = s.acount)

theorem CountsCells.of_error (i : Instr) (e : CmdError) (n : Nat) (s : State) :
    CountsCells i s (completeError e n s) :=
  ⟨fun h0 => absurd h0 e.code_ne_zero, fun _ => rfl⟩

/-- A commit that touches neither ERRCODE nor ACCESS_COUNT, with the count of the cells read and stored. -/
theorem CountsCells.of_success {i : Instr} {s u : State} {count : Nat} (h0 : s.errcode = 0#4)
    (hcode : u.errcode = s.errcode) (hacount : u.acount = s.acount) (hreads : readsFrom i ≤ readsTo i s)
    (hcount : count = readsTo i s - readsFrom i + storedCells i s) : CountsCells i s (completeSuccess count u) := by
  refine ⟨fun _ => ⟨hreads, ?_⟩, fun hne => absurd (hcode.trans h0) hne⟩
  rw [completeSuccess_acount, hacount, hcount]

/-- Settles O60, command by command: the count of each commit is the end of the cells that its checks read, less their
start, and the length of the row it stores. -/
theorem accessCountCountsCells : Obligations.AccessCountCountsCells := by
  intro i s t h0 h
  change CountsCells i s t
  cases i with
  | runcount =>
    rcases execRuncount_next h with ⟨e, n, -, -, rfl⟩ | ⟨row, hw, hp, hr, rfl⟩
    · exact .of_error _ e n s
    · have hreads := readsTo_raw hw (.inl rfl) hp hr
      exact .of_success h0 rfl rfl (Nat.zero_le _) hreads.symm
  | compress =>
    rcases execCompress_next h with ⟨e, n, -, -, rfl⟩ | ⟨row, hw, hp, hr, rfl⟩
    · exact .of_error _ e n s
    · have hreads := readsTo_raw hw (.inr (.inl rfl)) hp hr
      have hlen := rleEncode_length (hp.ne_nil hw.1)
      refine .of_success h0 rfl rfl (Nat.zero_le _) ?_
      rw [hreads, storedCells_compress hw hp hr, hlen]
      exact Nat.add_assoc _ _ _
  | decompress =>
    rcases execDecompress_next h with ⟨e, n, -, -, rfl⟩ | ⟨v, runs, hw, -, hruns, -, hx, rfl⟩
    · exact .of_error _ e n s
    · refine .of_success h0 rfl rfl (Nat.zero_le _) ?_
      rw [readsTo_decompress hw hx, storedCells_decompress hw hx, expandRuns_length_of_valid v hruns]
      rfl
  | sizeof =>
    rcases execSizeof_next h with rfl | ⟨k, -, -, hk, rfl⟩
    · exact .of_error _ _ _ s
    · have hreads := readsTo_scan (.inl rfl) hk
      exact .of_success h0 rfl rfl (by rw [hreads, readsFrom]; omega) (by rw [hreads]; rfl)
  | runsof =>
    rcases execRunsof_next h with rfl | ⟨k, -, -, hk, rfl⟩
    · exact .of_error _ _ _ s
    · have hreads := readsTo_scan (.inr rfl) hk
      exact .of_success h0 rfl rfl (by rw [hreads, readsFrom]; omega) (by rw [hreads]; rfl)
  | pack =>
    rcases execPack_next h with ⟨e, n, -, -, rfl⟩ | ⟨row, hw, hp, hr, rfl⟩
    · exact .of_error _ e n s
    · refine .of_success h0 rfl rfl (Nat.zero_le _) ?_
      rw [readsTo_raw hw (.inr (.inr rfl)) hp hr, storedCells_pack hw hp hr, packRow_length, hp.1]
      rfl
  | unpack =>
    rcases execUnpack_next h with ⟨e, n, -, -, rfl⟩ | ⟨bytes, hw, -, -, rfl⟩
    · exact .of_error _ e n s
    · refine .of_success h0 rfl rfl (Nat.zero_le _) ?_
      rw [readsTo_unpack hw, storedCells_unpack hw]
      rfl

end Sys2Proof.Machine
end

section
/-! PROOFS. The bus: what writes and reads do while BUSY = 1 (70_reset R240, R241) and while BUSY = 0 (10_state R26 to
R32; 20_memory R72; 70_reset R232 a), and the stride (00_scope R5). -/

namespace Sys2Proof.Machine

/-! ### Writes while BUSY = 1 (R240) -/

/-- The targets that take a write only while BUSY = 0. -/
abbrev IdleOnly (target : BusTarget) : Prop :=
  target = .cmd ∨ target = .width ∨ target = .accessCount ∨ (∃ m, target = .raw m) ∨ (∃ i, target = .rle i) ∨
    ∃ m, target = .pbm m

theorem writeTarget_idleOnly_busy {target : BusTarget} {s : State} (v : Word) (h : IdleOnly target)
    (hbusy : s.busy = true) : writeTarget target v s = dropWrite s := by
  rcases h with rfl | rfl | rfl | ⟨m, rfl⟩ | ⟨i, rfl⟩ | ⟨m, rfl⟩ <;> exact writeIdle_busy hbusy

/-- Settles O36: a write that answers is the `writeTarget` of its target, whose arms are the rows of the table. -/
theorem writesWhileBusy : Obligations.WritesWhileBusy := by
  intro s addr v hbusy
  refine ⟨fun target hd => ?_, fun n hd => by simp only [memWrite, hd]⟩
  rw [memWrite_hit v hd]
  refine ⟨fun h => ?_, ?_, ?_, ?_, ?_⟩
  · rw [writeTarget_idleOnly_busy v h hbusy]
    rfl
  · rintro rfl hsrst
    exact congrArg _ (writeCtrl_setsIe s hsrst)
  · rintro rfl hsrst
    exact congrArg _ (writeCtrl_softResets s hsrst)
  · rintro rfl
    rfl
  · rintro (rfl | rfl | rfl | rfl | rfl) <;> rfl

/-! ### Reads (R72, R241) -/

/-- The flags of STATUS, bits 3:0 (10_state R27). -/
theorem statusWord_flags (s : State) :
    (statusWord s).getLsbD 0 = s.busy ∧ (statusWord s).getLsbD 1 = s.done ∧
      (statusWord s).getLsbD 2 = errFlag s ∧ (statusWord s).getLsbD 3 = s.werr := by
  simp only [statusWord, BitVec.getLsbD_append]
  simp

/-- The fields of STATUS above its flags: ERRCODE in bits 11:8, the others reserved (10_state R27, R33). -/
theorem statusWord_fields (s : State) :
    (statusWord s).extractLsb' 8 4 = s.errcode ∧ (statusWord s).extractLsb' 4 4 = 0#4 ∧
      (statusWord s).extractLsb' 12 20 = 0#20 := by
  unfold statusWord
  simp (disch := decide) only [BitVec.extractLsb'_append_eq_of_le]
  exact ⟨BitVec.extractLsb'_append_eq_right, BitVec.extractLsb'_append_eq_right, rfl⟩

/-- A read that may give any value gives the next free one (log 3). -/
theorem memRead_anyValue {s : State} {addr n : Nat} {target : BusTarget} (t : Fin 16)
    (hd : busDecode s.params addr n = .hit target) (hv : readTarget target s = .anyValue) :
    memRead addr n t s = .next (setScratch t (Config.freeWord s.draws) { s with draws := s.draws + 1 }) := by
  simp only [memRead, hd, hv]

theorem readTarget_busy_anyValue {s : State} {target : BusTarget} (hbusy : s.busy = true)
    (h : target = .accessCount ∨ (∃ m, target = .raw m) ∨ (∃ i, target = .rle i) ∨ ∃ m, target = .pbm m) :
    readTarget target s = .anyValue := by
  rcases h with rfl | ⟨m, rfl⟩ | ⟨i, rfl⟩ | ⟨m, rfl⟩ <;> exact if_pos hbusy

/-- Settles O37: a read that reaches a register gives its word, and one that reaches ACCESS_COUNT or a buffer word the
next free value. -/
theorem readsWhileBusy : Obligations.ReadsWhileBusy := by
  intro s addr t hbusy target hd
  refine ⟨?_, ?_, ?_, ?_, ?_, ?_, ?_, ?_, ?_, fun h => memRead_anyValue t hd (readTarget_busy_anyValue hbusy h)⟩
  · rintro rfl; exact memRead_hit t hd rfl
  · rintro rfl; exact memRead_hit t hd rfl
  · rintro rfl; exact memRead_hit t hd rfl
  · rintro rfl
    rw [← ctrlWord_eq]
    exact memRead_hit t hd rfl
  · rintro rfl; exact memRead_hit t hd rfl
  · rintro rfl
    exact ⟨statusWord s, memRead_hit t hd rfl, (statusWord_flags s).1.trans hbusy⟩
  · rintro rfl; exact memRead_hit t hd rfl
  · rintro rfl; exact memRead_hit t hd rfl
  · rintro rfl; exact memRead_hit t hd rfl

/-- What a read gives does not depend on the HOST's scratch values. -/
theorem readTarget_setScratch (target : BusTarget) (t : Fin 16) (v : Word) (s : State) :
    readTarget target (setScratch t v s) = readTarget target s := by
  cases target <;> rfl

theorem setScratch_setScratch (t : Fin 16) (v : Word) (s : State) :
    setScratch t v (setScratch t v s) = setScratch t v s := by
  simp only [setScratch, Vector.set_set]

theorem BusRead.ofExcept_ne_anyValue (r : Except Fault Word) : BusRead.ofExcept r ≠ .anyValue := by
  cases r <;> exact nofun

theorem readTarget_idle_ne_anyValue {s : State} (target : BusTarget) (hidle : s.busy = false) :
    readTarget target s ≠ .anyValue := by
  have hnot : ¬s.busy = true := Bool.eq_false_iff.1 hidle
  cases target with
  | id | caps | stride | ctrl | cmd | status | width | result | errinfo => exact nofun
  | accessCount => simp only [readTarget, if_neg hnot]; exact nofun
  | raw m | rle i | pbm m => simp only [readTarget, if_neg hnot]; exact BusRead.ofExcept_ne_anyValue _

/-- A read while BUSY = 0 that answers has read a value of the state. -/
theorem memRead_idle_next {s u : State} {addr n : Nat} {t : Fin 16} (hidle : s.busy = false)
    (h : memRead addr n t s = .next u) :
    ∃ target v, busDecode s.params addr n = .hit target ∧ readTarget target s = .value v ∧ u = setScratch t v s := by
  unfold memRead at h
  split at h
  · cases h
  · cases h
  · next target hd =>
    split at h
    · next v hv => cases h; exact ⟨target, v, hd, hv, rfl⟩
    · next hv => exact absurd hv (readTarget_idle_ne_anyValue target hidle)
    · cases h

/-- Settles O38: the value read goes to the scratch value alone, and a second read of the same target gives it
again. -/
theorem readsHaveNoSideEffect : Obligations.ReadsHaveNoSideEffect := by
  intro s u addr n t h
  refine ⟨?_, fun k hk => ?_, fun hidle => ?_⟩
  · obtain ⟨v, d, rfl, -⟩ := memRead_next h
    rfl
  · obtain ⟨v, d, rfl, -⟩ := memRead_next h
    exact Vector.getElem_set_ne t.isLt k.isLt (fun hval => hk (Fin.ext hval.symm))
  · obtain ⟨target, v, hd, hv, rfl⟩ := memRead_idle_next hidle h
    have hagain := memRead_hit (s := setScratch t v s) t hd ((readTarget_setScratch target t v s).trans hv)
    exact ⟨rfl, by rw [hagain, setScratch_setScratch]⟩

/-! ### Registers (R26 to R32) -/

/-- Settles O42: the word that STATUS reads is `statusWord`. -/
theorem statusWordFields : Obligations.StatusWordFields := by
  intro s t
  have hstatus : registerAt 0x14 = some .status := rfl
  have herr : errFlag s = decide (s.errcode ≠ 0#4) := decide_not.symm
  obtain ⟨h0, h1, h2, h3⟩ := statusWord_flags s
  exact ⟨statusWord s, memRead_register t hstatus rfl, h0, h1, h2.trans herr, h3, statusWord_fields s⟩

/-- Settles O43: the write is `writeStatus`, which clears a bit exactly where the word has a 1. -/
theorem statusWriteClearsOnes : Obligations.StatusWriteClearsOnes := by
  intro s v
  have hstatus : registerAt 0x14 = some .status := rfl
  refine ⟨writeStatus v s, memWrite_register v hstatus, rfl, fun hv => ⟨?_, ?_⟩, fun hv => ?_, fun hv => ?_,
    fun hv => ?_⟩
  · rw [writeStatus_done, hv, Bool.not_true, Bool.and_false]
  · rw [irq_writeStatus, hv, Bool.not_true, Bool.and_false]
  · rw [writeStatus_done, hv, Bool.not_false, Bool.and_true]
  · rw [writeStatus_werr, hv, Bool.not_true, Bool.and_false]
  · rw [writeStatus_werr, hv, Bool.not_false, Bool.and_true]

/-- Settles O46: each of the five is a register; while BUSY = 0 a write to WIDTH or ACCESS_COUNT is stored, and
ACCESS_COUNT reads its value. -/
theorem idleRegisterAccess : Obligations.IdleRegisterAccess := by
  intro s t v hidle
  have hcmd : registerAt 0x10 = some .cmd := rfl
  have hwidth : registerAt 0x18 = some .width := rfl
  have hresult : registerAt 0x1C = some .result := rfl
  have herrinfo : registerAt 0x20 = some .errinfo := rfl
  have hacount : registerAt 0x24 = some .accessCount := rfl
  have hread : readTarget .accessCount s = .value s.acount := if_neg (Bool.eq_false_iff.1 hidle)
  exact ⟨(memWrite_register v hwidth).trans (congrArg _ (writeIdle_idle hidle)), memRead_register t hwidth rfl,
    (memWrite_register v hacount).trans (congrArg _ (writeIdle_idle hidle)), memRead_register t hacount hread,
    memWrite_register v hresult, memRead_register t hresult rfl,
    memWrite_register v herrinfo, memRead_register t herrinfo rfl, memRead_register t hcmd rfl⟩

/-! ### Uninitialised lanes (R232 a) -/

theorem memRead_fault {s : State} {addr n : Nat} {target : BusTarget} {f : Fault} (t : Fin 16)
    (hd : busDecode s.params addr n = .hit target) (hf : readTarget target s = .fault f) :
    memRead addr n t s = .fault f := by
  simp only [memRead, hd, hf]

/-- A word whose lanes below `b` are initialised and whose lane `b` is an uninitialised cell faults at that cell. -/
theorem laneWord_of_uninitialised {buf : Buffer} {cap m b : Nat} {cells : List Host.Cell} (hb : b < 4)
    (hcap : 4 * m + b < cap) (hread : Memory.read cells (4 * m + b) = none)
    (hbelow : ∀ a, a < b → (Memory.read cells (4 * m + a)).isSome) :
    laneWord buf cap cells m = .error (.hostReadUninitialised buf (4 * m + b)) := by
  have hnone : laneByte cap cells (4 * m + b) = none := (laneByte_cell cells hcap).trans hread
  have hsome : ∀ a, a < b → ∃ x, laneByte cap cells (4 * m + a) = some x :=
    fun a ha => exists_laneByte fun _ => hbelow a ha
  unfold laneWord
  obtain rfl | rfl | rfl | rfl : b = 0 ∨ b = 1 ∨ b = 2 ∨ b = 3 := by omega
  · rw [Nat.add_zero] at hnone
    simp only [hnone, Nat.add_zero]
  · obtain ⟨b0, h0⟩ := hsome 0 (by decide)
    rw [Nat.add_zero] at h0
    simp only [h0, hnone]
  · obtain ⟨b0, h0⟩ := hsome 0 (by decide)
    obtain ⟨b1, h1⟩ := hsome 1 (by decide)
    rw [Nat.add_zero] at h0
    simp only [h0, h1, hnone]
  · obtain ⟨b0, h0⟩ := hsome 0 (by decide)
    obtain ⟨b1, h1⟩ := hsome 1 (by decide)
    obtain ⟨b2, h2⟩ := hsome 2 (by decide)
    rw [Nat.add_zero] at h0
    simp only [h0, h1, h2, hnone]

/-- Settles O50: each region's word faults at its lowest uninitialised lane. -/
theorem uninitialisedHostReadFaults : Obligations.UninitialisedHostReadFaults := by
  intro s t hidle
  refine ⟨fun m b hb hcap hread hbelow => ?_, fun i hi hread => ?_, fun m b hb hcap hread hbelow => ?_⟩
  · have hword := laneWord_of_uninitialised (buf := .raw) (cap := s.params.rawCap) hb hcap hread hbelow
    have hd := busDecode_rawWord (p := s.params) (m := m) (by simp only [Params.rawCap]; omega)
    exact memRead_fault t hd (by simp only [readTarget, hidle, hword]; rfl)
  · have hd := busDecode_rleWord (p := s.params) hi
    exact memRead_fault t hd (by simp only [readTarget, hidle, elementWord, hread]; rfl)
  · have hword := laneWord_of_uninitialised (buf := .pbm) (cap := s.params.pbmCap) hb hcap hread hbelow
    have hd := busDecode_pbmWord (p := s.params) (m := m) (by simp only [Params.pbmCap]; omega)
    exact memRead_fault t hd (by simp only [readTarget, hidle, hword]; rfl)

/-! ### The stride (R5) -/

/-- `2^(log2(n - 1) + 1)` is at most every power of two that is at least `n`. -/
theorem stride_le_of_le_two_pow {p : Params} {k : Nat} (h : max 256 (4 * (p.maxWidth + 2)) ≤ 2 ^ k) :
    p.stride ≤ 2 ^ k := by
  have hlog : Nat.log2 (max 256 (4 * (p.maxWidth + 2)) - 1) < k := (Nat.log2_lt (by omega)).2 (by omega)
  exact Nat.pow_le_pow_right (by decide) hlog

theorem window_le_of_wf {p : Params} (hwf : p.wf = true) : 4 * p.stride ≤ 2 ^ 32 := by
  simp only [Params.wf, Bool.and_eq_true, decide_eq_true_eq] at hwf
  have hle : p.stride ≤ 2 ^ 30 := stride_le_of_le_two_pow (by omega)
  omega

/-- Settles O55: the stride is a power of two between the bound and every power of two that is at least the bound; for
legal parameters 2^30 is one. -/
theorem strideIsLeastPowerOfTwo : Obligations.StrideIsLeastPowerOfTwo := by
  intro p
  refine ⟨⟨_, rfl⟩, stride_ge p, fun k => stride_le_of_le_two_pow, window_le_of_wf, ?_, regions_fit p⟩
  simp only [Params.rawCap, Params.rleCap]
  omega

end Sys2Proof.Machine
end

section
/-! PROOFS. Steps and agents: whose turn it is and what it does (00_scope R15; 60_exceptions R205, R212, R218), what a
HOST step leaves of a command in flight (20_memory R81), and the events of STATUS (10_state R27). -/

namespace Sys2Proof.Machine

/-- Settles O2, by evaluation of the decoder on the twelve words. -/
theorem tableWordsDecode : Obligations.TableWordsDecode := by
  unfold Obligations.TableWordsDecode
  decide

/-! ### Whose turn it is (R205, R212, R218) -/

theorem nextAgent_host {s : State} (hturn : ¬EngineTurn s) (hended : hostEnded s = false) : nextAgent s = .host := by
  rw [nextAgent, if_neg hturn, if_neg (Bool.eq_false_iff.1 hended)]

theorem nextAgent_idle {s : State} (hidle : s.busy = false) (hended : hostEnded s = true) : nextAgent s = .idle := by
  rw [nextAgent, if_neg (fun h => Bool.eq_false_iff.1 hidle h.1), if_pos hended]

theorem step_engine {s : State} (h : EngineTurn s) : step s = engineStep s := by
  simp only [step, nextAgent_engine.2 h]

theorem engineStep_command {s : State} {i : Instr} (h : decode s.lcmd = .command i) : engineStep s = exec i s := by
  simp only [engineStep, h]

/-- Settles O3: the ENGINE's turn runs `engineStep`, which runs the command that LCMD decodes to. -/
theorem stepRunsLatchedCommand : Obligations.StepRunsLatchedCommand := fun _ hturn =>
  ⟨step_engine hturn, fun _ hi => (step_engine hturn).trans (engineStep_command hi)⟩

/-- A HOST that has a line other than HALT has not ended. -/
theorem hostEnded_of_line {s : State} {op : HostOp} (hp : s.program[s.hostPc]? = some op) (hop : op ≠ .halt) :
    hostEnded s = false := by
  unfold hostEnded
  rw [hp]
  cases op with
  | halt => exact absurd rfl hop
  | _ => rfl

theorem hostStep_of_line {s : State} {op : HostOp} (hp : s.program[s.hostPc]? = some op) (hop : op ≠ .halt) :
    hostStep s = runHostOp op (hostAdvance s) := by
  unfold hostStep
  rw [hp]
  cases op with
  | halt => exact absurd rfl hop
  | _ => rfl

theorem step_of_line {s : State} {op : HostOp} (hp : s.program[s.hostPc]? = some op) (hop : op ≠ .halt)
    (hturn : ¬EngineTurn s) : step s = runHostOp op (hostAdvance s) := by
  simp only [step, nextAgent_host hturn (hostEnded_of_line hp hop), hostStep_of_line hp hop]

/-- Settles O5: with no command in flight or latency left it is not the ENGINE's turn, and the HOST has a line or has
ended. -/
theorem hostLineRunsOnItsTurn : Obligations.HostLineRunsOnItsTurn := by
  refine ⟨fun s op hp hop hwho => step_of_line hp hop ?_, fun s hidle hended => ?_⟩
  · rintro ⟨hbusy, hready⟩
    rcases hready with hwait | hended'
    · rcases hwho with hidle | hlatency
      · exact Bool.noConfusion (hidle.symm.trans hbusy)
      · exact hlatency hwait
    · exact Bool.noConfusion ((hostEnded_of_line hp hop).symm.trans hended')
  · simp only [step, nextAgent_idle hidle hended]

/-- Settles O6: each line is an arm of `runHostOp`, and the two branches take one of two ways by their condition. -/
theorem hostNotationLines : Obligations.HostNotationLines := by
  intro s off n label t mask v
  refine ⟨rfl, rfl, rfl, rfl, fun h => ?_, fun h => ?_, fun h => ?_, fun h => ?_, fun h => ?_⟩
  · exact congrArg _ (if_pos h)
  · exact congrArg _ (if_neg (not_not.2 h))
  · exact congrArg _ (if_pos h)
  · exact congrArg _ (if_neg h)
  · simp only [hostEnded, h]

/-- Settles O8: whose turn it is depends on the latency alone. -/
theorem eitherOrderAdmitted : Obligations.EitherOrderAdmitted := by
  intro s hbusy hended
  refine ⟨nextAgent_engine.2 ⟨hbusy, .inl rfl⟩, fun n => nextAgent_host ?_ hended⟩
  rintro ⟨-, hwait | hended'⟩
  · exact absurd hwait (Nat.succ_ne_zero n)
  · exact absurd hended' (Bool.eq_false_iff.1 hended)

/-! ### A command in flight (R81, R205) -/

/-- A write that leaves a command in flight is neither an issue nor a reset. -/
theorem writeTarget_inFlight {target : BusTarget} {v : Word} {s : State} (hbusy : s.busy = true)
    (hstays : (writeTarget target v s).busy = true) :
    SameButWritten s (writeTarget target v s) ∧ SameOperandCells s (writeTarget target v s) := by
  rcases writeTarget_cases target v s with ⟨hsame, -, hcells⟩ | ⟨-, hidle, -⟩ | ⟨-, -, hu⟩
  · exact ⟨hsame, hcells hbusy⟩
  · cases hidle.symm.trans hbusy
  · rw [hu] at hstays
    cases hstays

/-- Settles O54: a HOST step that keeps a command in flight moves the HOST's own side or is a write that is neither an
issue nor a reset, which leaves the operands while BUSY = 1. -/
theorem operandsFrozenInFlight : Obligations.OperandsFrozenInFlight := by
  intro s t hbusy h hstays
  rcases hostStep_events h with ht | ⟨target, v, -, rfl⟩ | ⟨-, rfl⟩
  · rw [ht]
    exact ⟨rfl, rfl, rfl, rfl, rfl, rfl, rfl, rfl, rfl⟩
  · obtain ⟨hsame, hwidth, hacount, hraw, hrle, hpbm⟩ := writeTarget_inFlight (s := hostAdvance s) hbusy hstays
    exact ⟨hsame.lcmd, hwidth, hraw, hrle, hpbm, hacount, hsame.result, hsame.errcode, hsame.errinfo⟩
  · cases hstays

/-- A HOST step of a HOST that has not ended, with a command in flight before and after, takes one step of the
latency. -/
theorem hostStep_wait {s t : State} (hended : hostEnded s = false) (hbusy : s.busy = true)
    (h : hostStep s = .next t) (hstays : t.busy = true) : t.wait = s.wait - 1 := by
  rcases hostStep_line h with ⟨hended', -⟩ | ⟨op, -, hop⟩
  · cases hended.symm.trans hended'
  · rcases runHostOp_next hop with ht | ⟨addr, target, v, -, -, rfl⟩ | ⟨-, rfl⟩
    · rw [ht, hostAdvance_wait]
    · obtain ⟨hsame, -⟩ := writeTarget_inFlight (s := hostAdvance s) hbusy hstays
      rw [hsame.wait, hostAdvance_wait]
    · cases hstays

/-- A command in flight is out of flight or on the ENGINE's turn within `k` steps, or the run stops within them. -/
def MeetsCompletionWithin (k : Nat) (s : State) : Prop :=
  (∃ j t, j ≤ k ∧ core.run j s = .next t ∧ (t.busy = false ∨ nextAgent t = .engine)) ∨
  (∃ j, j ≤ k ∧ ∀ t, core.run j s ≠ .next t)

theorem MeetsCompletionWithin.now {k : Nat} {s : State} (h : s.busy = false ∨ nextAgent s = .engine) :
    MeetsCompletionWithin k s := .inl ⟨0, s, Nat.zero_le k, rfl, h⟩

theorem run_succ_of_next {M : Host.Core} {k : Nat} {s t : M.State} (h : M.step s = .next t) :
    M.run (k + 1) s = M.run k t := by
  rw [Host.Core.run, h]

theorem run_one_ne_next {M : Host.Core} {s : M.State} (h : ∀ t, M.step s ≠ .next t) (t : M.State) :
    M.run 1 s ≠ .next t := by
  intro ht
  rw [Host.Core.run] at ht
  split at ht
  · next u hu => exact h u hu
  · cases ht
  · cases ht

theorem MeetsCompletionWithin.of_step {k : Nat} {s t : State} (h : step s = .next t)
    (ht : MeetsCompletionWithin k t) : MeetsCompletionWithin (k + 1) s := by
  have hrun (j : Nat) : core.run (j + 1) s = core.run j t := run_succ_of_next (M := core) h
  rcases ht with ⟨j, u, hj, hu, hend⟩ | ⟨j, hj, hstop⟩
  · exact .inl ⟨j + 1, u, Nat.succ_le_succ hj, (hrun j).trans hu, hend⟩
  · exact .inr ⟨j + 1, Nat.succ_le_succ hj, fun u hu => hstop u ((hrun j).symm.trans hu)⟩

theorem MeetsCompletionWithin.of_stop {k : Nat} {s : State} (h : ∀ t, step s ≠ .next t) :
    MeetsCompletionWithin (k + 1) s :=
  .inr ⟨1, Nat.succ_le_succ (Nat.zero_le k), run_one_ne_next (M := core) h⟩

/-- By induction on the latency left: it is the ENGINE's turn, or the HOST takes a step that spends one. -/
theorem meetsCompletionWithin_wait {k : Nat} {s : State} (hbusy : s.busy = true) (hwait : s.wait = k) :
    MeetsCompletionWithin k s := by
  induction k generalizing s with
  | zero => exact .now (.inr (nextAgent_engine.2 ⟨hbusy, .inl hwait⟩))
  | succ k ih =>
    by_cases hturn : EngineTurn s
    · exact .now (.inr (nextAgent_engine.2 hturn))
    · have hended : hostEnded s = false := Bool.eq_false_iff.2 fun h => hturn ⟨hbusy, .inr h⟩
      have hhost : step s = hostStep s := by simp only [step, nextAgent_host hturn hended]
      cases h : hostStep s with
      | fault f => exact .of_stop fun t ht => by cases h.symm.trans (hhost.symm.trans ht)
      | refused r => exact .of_stop fun t ht => by cases h.symm.trans (hhost.symm.trans ht)
      | next t =>
        refine .of_step (hhost.trans h) ?_
        by_cases hstays : t.busy = true
        · exact ih hstays (by rw [hostStep_wait hended hbusy h hstays, hwait, Nat.add_sub_cancel])
        · exact .now (.inl (Bool.eq_false_iff.2 hstays))

/-- Settles O7: within the latency left, the ENGINE's turn comes, the command leaves flight, or the run stops. -/
theorem completionEventuallyTaken : Obligations.CompletionEventuallyTaken := fun _ hbusy =>
  meetsCompletionWithin_wait hbusy rfl

/-! ### The events of STATUS (10_state R27) -/

/-- What a completion leaves in STATUS: an error's code is not 0, and a success has none. -/
theorem engineStep_status {s t : State} (h : engineStep s = .next t) :
    t.busy = false ∧ t.done = true ∧ t.werr = s.werr ∧ (t.errcode = s.errcode ∨ t.errcode ≠ 0#4) := by
  rcases engineStep_cases h with ⟨e, n, rfl⟩ | ht
  · exact ⟨rfl, rfl, rfl, .inr e.code_ne_zero⟩
  · rw [ht]
    exact ⟨rfl, rfl, rfl, .inl rfl⟩

/-- BUSY, DONE, WERR and ERRCODE are as they were. -/
def SameStatus (s t : State) : Prop :=
  t.busy = s.busy ∧ t.done = s.done ∧ t.werr = s.werr ∧ t.errcode = s.errcode

/-- What a write that reaches a target does to STATUS: it is dropped, an issue, a write to STATUS, a soft reset, or
leaves STATUS. -/
theorem writeTarget_status (target : BusTarget) (v : Word) (s : State) :
    (IdleOnly target ∧ s.busy = true ∧ writeTarget target v s = dropWrite s) ∨
    (target = .cmd ∧ s.busy = false ∧ writeTarget target v s = issue v s) ∨
    (target = .status ∧ writeTarget target v s = writeStatus v s) ∨
    (target = .ctrl ∧ v.getLsbD 1 = true ∧ writeTarget target v s = softReset s) ∨
    SameStatus s (writeTarget target v s) := by
  cases target with
  | id | caps | stride | result | errinfo => exact .inr (.inr (.inr (.inr ⟨rfl, rfl, rfl, rfl⟩)))
  | ctrl =>
    cases hv : v.getLsbD 1 with
    | true => exact .inr (.inr (.inr (.inl ⟨rfl, rfl, writeCtrl_softResets s hv⟩)))
    | false =>
      refine .inr (.inr (.inr (.inr ?_)))
      rw [show writeTarget .ctrl v s = _ from writeCtrl_setsIe s hv]
      exact ⟨rfl, rfl, rfl, rfl⟩
  | status => exact .inr (.inr (.inl ⟨rfl, rfl⟩))
  | cmd =>
    cases hbusy : s.busy with
    | true => exact .inl ⟨.inl rfl, rfl, writeIdle_busy hbusy⟩
    | false => exact .inr (.inl ⟨rfl, rfl, writeIdle_idle hbusy⟩)
  | width | accessCount | raw _ | rle _ | pbm _ =>
    cases hbusy : s.busy with
    | true => exact .inl ⟨by simp [IdleOnly], rfl, writeIdle_busy hbusy⟩
    | false =>
      simp only [writeTarget, writeIdle_idle hbusy]
      exact .inr (.inr (.inr (.inr ⟨rfl, rfl, rfl, rfl⟩)))

section
variable (s t : State)

/-- What `Obligations.StatusBitEvents` says of BUSY in one step. -/
def BusyEvents : Prop :=
  (s.busy = false → t.busy = true → ∃ v, HostWrites s .cmd v) ∧
  (s.busy = true → t.busy = false → EngineTurn s ∨ HostResets s)

/-- What it says of DONE. -/
def DoneEvents : Prop :=
  (s.done = false → t.done = true → EngineTurn s) ∧
  (s.done = true → t.done = false →
    (∃ v, HostWrites s .status v ∧ v.getLsbD 1 = true) ∨ (∃ v, HostWrites s .cmd v ∧ s.busy = false) ∨ HostResets s)

/-- What it says of WERR. -/
def WerrEvents : Prop :=
  (s.werr = false → t.werr = true → s.busy = true ∧ ∃ target v, HostWrites s target v ∧ IdleOnly target) ∧
  (s.werr = true → t.werr = false → (∃ v, HostWrites s .status v ∧ v.getLsbD 3 = true) ∨ HostResets s)

/-- What it says of ERRCODE. -/
def ErrcodeEvents : Prop :=
  (t.errcode ≠ s.errcode → t.errcode ≠ 0#4 → EngineTurn s) ∧
  (t.errcode ≠ s.errcode → t.errcode = 0#4 → (∃ v, HostWrites s .cmd v ∧ s.busy = false) ∨ HostResets s)

/-- What it says of the four. -/
def StatusEvents : Prop := BusyEvents s t ∧ DoneEvents s t ∧ WerrEvents s t ∧ ErrcodeEvents s t

end

/-! A flag over one step, with `P` for what sets it and `Q` for what clears it. -/

section
variable {before after : Bool} {P Q : Prop}

theorem flag_kept (h : after = before) :
    (before = false → after = true → P) ∧ (before = true → after = false → Q) :=
  ⟨fun h0 h1 => Bool.noConfusion (h0.symm.trans (h.symm.trans h1)),
    fun h1 h0 => Bool.noConfusion (h0.symm.trans (h.trans h1))⟩

theorem flag_set (h : after = true) (hset : P) :
    (before = false → after = true → P) ∧ (before = true → after = false → Q) :=
  ⟨fun _ _ => hset, fun _ h0 => Bool.noConfusion (h.symm.trans h0)⟩

theorem flag_cleared (h : after = false) (hclear : Q) :
    (before = false → after = true → P) ∧ (before = true → after = false → Q) :=
  ⟨fun _ h1 => Bool.noConfusion (h.symm.trans h1), fun _ _ => hclear⟩

/-- A flag that a write changes only by clearing it, where the written bit is 1 (10_state R27). -/
theorem flag_write_one {clear : Bool} (h : after = (before && !clear)) (hclear : clear = true → Q) :
    (before = false → after = true → P) ∧ (before = true → after = false → Q) := by
  cases clear with
  | true => exact flag_cleared (h.trans (Bool.and_false before)) (hclear rfl)
  | false => exact flag_kept (h.trans (Bool.and_true before))

end

/-! Each event, by what it leaves of the four. -/

section
variable {s t : State}

theorem ErrcodeEvents.of_same (h : t.errcode = s.errcode) : ErrcodeEvents s t :=
  ⟨fun hne => absurd h hne, fun hne => absurd h hne⟩

theorem StatusEvents.of_same (h : SameStatus s t) : StatusEvents s t := by
  obtain ⟨hbusy, hdone, hwerr, hcode⟩ := h
  exact ⟨flag_kept hbusy, flag_kept hdone, flag_kept hwerr, .of_same hcode⟩

theorem StatusEvents.of_completion (hturn : EngineTurn s) (h : engineStep s = .next t) : StatusEvents s t := by
  obtain ⟨hbusy, hdone, hwerr, hcode⟩ := engineStep_status h
  refine ⟨flag_cleared hbusy (.inl hturn), flag_set hdone hturn, flag_kept hwerr, fun _ _ => hturn, fun hne h0 => ?_⟩
  rcases hcode with hsame | hcode
  · exact absurd hsame hne
  · exact absurd h0 hcode

theorem StatusEvents.of_reset (hreset : HostResets s) (hcode : t.errcode = 0#4) (hbusy : t.busy = false)
    (hdone : t.done = false) (hwerr : t.werr = false) : StatusEvents s t :=
  ⟨flag_cleared hbusy (.inr hreset), flag_cleared hdone (.inr (.inr hreset)), flag_cleared hwerr (.inr hreset),
    fun _ hne => absurd hcode hne, fun _ _ => .inr hreset⟩

theorem StatusEvents.of_dropped {target : BusTarget} {v : Word} (hw : HostWrites s target v)
    (htarget : IdleOnly target) (hbusy : s.busy = true) : StatusEvents s (dropWrite (hostAdvance s)) :=
  ⟨flag_kept rfl, flag_kept rfl, flag_set rfl ⟨hbusy, target, v, hw, htarget⟩, .of_same rfl⟩

theorem StatusEvents.of_issue {v : Word} (hw : HostWrites s .cmd v) (hidle : s.busy = false) :
    StatusEvents s (issue v (hostAdvance s)) :=
  ⟨flag_set rfl ⟨v, hw⟩, flag_cleared rfl (.inr (.inl ⟨v, hw, hidle⟩)), flag_kept rfl,
    fun _ hne => absurd rfl hne, fun _ _ => .inl ⟨v, hw, hidle⟩⟩

theorem StatusEvents.of_statusWrite {v : Word} (hw : HostWrites s .status v) :
    StatusEvents s (writeStatus v (hostAdvance s)) :=
  ⟨flag_kept rfl, flag_write_one rfl fun hv => .inl ⟨v, hw, hv⟩, flag_write_one rfl fun hv => .inl ⟨v, hw, hv⟩,
    .of_same rfl⟩

theorem StatusEvents.of_write {target : BusTarget} {v : Word} (hw : HostWrites s target v) :
    StatusEvents s (writeTarget target v (hostAdvance s)) := by
  rcases writeTarget_status target v (hostAdvance s) with ⟨htarget, hbusy, hu⟩ | ⟨rfl, hidle, hu⟩ | ⟨rfl, hu⟩ |
    ⟨rfl, hv, hu⟩ | hsame
  · rw [hu]
    exact .of_dropped hw htarget hbusy
  · rw [hu]
    exact .of_issue hw hidle
  · rw [hu]
    exact .of_statusWrite hw
  · rw [hu]
    exact .of_reset (.inl ⟨v, hw, hv⟩) rfl rfl rfl rfl
  · exact .of_same hsame

theorem StatusEvents.of_step (h : step s = .next t) : StatusEvents s t := by
  rcases step_next h with ⟨hturn, he⟩ | ⟨-, hh⟩ | rfl
  · exact .of_completion hturn he
  · rcases hostStep_events hh with ht | ⟨target, v, hw, rfl⟩ | ⟨hline, rfl⟩
    · rw [ht]
      exact .of_same ⟨rfl, rfl, rfl, rfl⟩
    · exact .of_write hw
    · exact .of_reset (.inr hline) rfl rfl rfl rfl
  · exact .of_same ⟨rfl, rfl, rfl, rfl⟩

end

/-- Settles O44: a step is a completion, a host write, a reset or a move of the HOST's own side, and each changes of
STATUS what its rule says. -/
theorem statusBitEvents : Obligations.StatusBitEvents := by
  intro s t _ h
  obtain ⟨⟨hbusy, hbusy'⟩, ⟨hdone, hdone'⟩, ⟨hwerr, hwerr'⟩, hcode, hcode'⟩ := StatusEvents.of_step h
  exact ⟨hbusy, hbusy', hdone, hdone', hwerr, hwerr', hcode, hcode'⟩

end Sys2Proof.Machine
end
